-- ==== Sys2Proof/Word.lean ====
section
/-! DEFINITION. The unsigned bit vectors of the block (spec/00_scope.md R8, spec/20_memory.md R50, R58). -/

namespace Sys2Proof

/-- The value of one hex digit. -/
abbrev Nibble := BitVec 4

/-- A character of the stream, a decoded byte, an 8-bit operand (R50). -/
abbrev Byte := BitVec 8

/-- A command word, a register, a CRC, a counter (R6). -/
abbrev Word := BitVec 16

/-- A word on the event port (R73). -/
abbrev EventWord := BitVec 20

end Sys2Proof
end

