-- ==== Sys2Proof/Config.lean ====
section
/-! DEFINITION. The constants of the block (spec/00_scope.md R6, spec/10_state.md R45). Every parameter has a value in
the spec ("none is left as a model argument"), so there is no uninterpreted constant here: the spec leaves no value open. -/

namespace Sys2Proof.Config

/-- The CRC polynomial constant (R6, R101). -/
def crcPoly : Word := 0xA001#16

/-- The CRC initial value (R6, R103). -/
def crcStart : Word := 0xFFFF#16

/-- The frame terminator, line feed (R6, R130). -/
def terminator : Byte := 10#8

/-- The ignored byte, carriage return (R6, R129). -/
def ignoredByte : Byte := 13#8

/-- The byte a failing pair contributes (R6, R126). -/
def fallbackByte : Byte := 0x00#8

/-- Where the counters BCNT and ECNT saturate (R6, R8). -/
def counterMax : Word := 0xFFFF#16

end Sys2Proof.Config
end

