-- ==== Sys2Proof/Syntax.lean ====
section
/-! DEFINITION. The commands of the block, one constructor per mnemonic of spec/opcode_table.json (the ten CHAR.HEX
rows are the masks of one character class, spec/30_encoding.md R75; log entry 5), and the names their operands use. -/

namespace Sys2Proof

/-- The register map, index 0 to 7 in this order (spec/10_state.md R34). -/
inductive Reg where
  | ctrl | status | dcrc | rFlags | rCrcc | rCrcr | rBcnt | rEcnt
deriving DecidableEq, Repr

/-- The classes of characters (spec/30_encoding.md R75). -/
inductive CharClass where
  | lf | cr | hex | bad
deriving DecidableEq, Repr

/-- The ten operations of the opcode map (spec/30_encoding.md R80). -/
inductive Op where
  | nop | charLf | charCr | charHex | charBad | crcinit | crcupd | rdreg | wrctl | rdtbl
deriving DecidableEq, Repr

/-- Why a command word encodes no command. -/
inductive IllegalWord where
  /-- The opcode is assigned and a bit that its format marks 0 is 1 (R82). -/
  | reservedBits
  /-- The opcode is one of 0x7 to 0xF (R83). -/
  | unassignedOpcode
deriving DecidableEq, Repr

/-- A command. The character of CHAR.LF and of CHAR.CR is fixed by the class, so these carry no operand. -/
inductive Instr where
  /-- NOP (R150). -/
  | nop
  /-- CHAR.LF, the frame terminator (R130). -/
  | charLf
  /-- CHAR.CR, dropped (R129). -/
  | charCr
  /-- CHAR.HEX: a hex digit `c` (R127). -/
  | charHex (c : Byte)
  /-- CHAR.BAD: any other data character `c` (R128). -/
  | charBad (c : Byte)
  /-- CRCINIT (R109). -/
  | crcinit
  /-- CRCUPD: one data byte `b` (R110). -/
  | crcupd (b : Byte)
  /-- RDREG: one register (R151). -/
  | rdreg (r : Reg)
  /-- WRCTL: the new SWAP and SEV, in the order of the word's bits 1 and 0 (R153). -/
  | wrctl (swap sev : Bool)
  /-- RDTBL: one table index `i` (R112). -/
  | rdtbl (i : Byte)
deriving DecidableEq, Repr

end Sys2Proof
end

