-- ==== Sys2Proof/Machine/Operands.lean ====
section
/-! DEFINITION. Operand forms: the character classes, the value of a hex digit, the register index
(spec/30_encoding.md R75, R77, R78; spec/41_hex_frame.md R120, R121; spec/10_state.md R34). -/

namespace Sys2Proof.Machine

/-- R120 `is_hex`: `0`-`9`, `A`-`F`, `a`-`f` and nothing else. -/
def isHex (c : Byte) : Bool :=
  (0x30#8 ≤ c && c ≤ 0x39#8) || (0x41#8 ≤ c && c ≤ 0x46#8) || (0x61#8 ≤ c && c ≤ 0x66#8)

/-- R121 `hexval`, a 4-bit value. R121 defines it for hex digits only: any other character has no value. -/
def hexVal (c : Byte) : Option Nibble :=
  if 0x30#8 ≤ c ∧ c ≤ 0x39#8 then some ((c - 0x30#8).setWidth 4)
  else if 0x41#8 ≤ c ∧ c ≤ 0x46#8 then some ((c - 0x37#8).setWidth 4)
  else if 0x61#8 ≤ c ∧ c ≤ 0x66#8 then some ((c - 0x57#8).setWidth 4)
  else none

/-- R75: the class of a character. -/
def charClass (c : Byte) : CharClass :=
  if c = Config.terminator then .lf
  else if c = Config.ignoredByte then .cr
  else if isHex c then .hex
  else .bad

/-- R14: a character that is neither 10 nor 13. -/
def isData (c : Byte) : Bool := c != Config.terminator && c != Config.ignoredByte

/-- R34: the register with a 3-bit index. -/
def regOfIndex (r : BitVec 3) : Reg :=
  match r.toNat with
  | 0 => .ctrl
  | 1 => .status
  | 2 => .dcrc
  | 3 => .rFlags
  | 4 => .rCrcc
  | 5 => .rCrcr
  | 6 => .rBcnt
  | _ => .rEcnt

/-- R34: the index of a register. -/
def regIndex : Reg → BitVec 3
  | .ctrl => 0
  | .status => 1
  | .dcrc => 2
  | .rFlags => 3
  | .rCrcc => 4
  | .rCrcr => 5
  | .rBcnt => 6
  | .rEcnt => 7

end Sys2Proof.Machine
end

