-- ==== Sys2Proof/WellFormed.lean ====
section
/-! DEFINITION. Which terms of `Instr` are commands: the character of a CHAR constructor is of its class
(spec/30_encoding.md R75). Every other operand admits all its values (R77). -/

namespace Sys2Proof

/-- The term stands for a command word. -/
def Instr.wf : Instr → Bool
  | .charHex c => Machine.charClass c = .hex
  | .charBad c => Machine.charClass c = .bad
  | .nop | .charLf | .charCr | .crcinit | .crcupd _ | .rdreg _ | .wrctl _ _ | .rdtbl _ => true

end Sys2Proof
end

