-- ==== Sys2Proof/Decode.lean ====
section
/-! DEFINITION. Decoding a command word by the table of spec/30_encoding.md R80 (first row that matches, R76), the
encoder written from the formats R71 and the words R86, and the host's reading of a table word. -/

namespace Sys2Proof

/-- One row of the opcode map (R80). -/
structure Row where
  op      : Op
  pattern : Word
  mask    : Word
deriving DecidableEq, Repr

/-- R76: `CW & mask == match`. -/
def Row.hits (r : Row) (cw : Word) : Bool := (cw &&& r.mask) == r.pattern

/-- Rows 1 to 14 of R80: NOP and the CHAR classes, CHAR.BAD last. -/
def charRows : List Row :=
  [⟨.nop, 0x0000, 0xFFFF⟩, ⟨.charLf, 0x100A, 0xFFFF⟩, ⟨.charCr, 0x100D, 0xFFFF⟩] ++
  [⟨.charHex, 0x1030, 0xFFF8⟩, ⟨.charHex, 0x1038, 0xFFFE⟩] ++
  [⟨.charHex, 0x1041, 0xFFFF⟩, ⟨.charHex, 0x1042, 0xFFFE⟩,
   ⟨.charHex, 0x1044, 0xFFFE⟩, ⟨.charHex, 0x1046, 0xFFFF⟩] ++
  [⟨.charHex, 0x1061, 0xFFFF⟩, ⟨.charHex, 0x1062, 0xFFFE⟩,
   ⟨.charHex, 0x1064, 0xFFFE⟩, ⟨.charHex, 0x1066, 0xFFFF⟩] ++
  [⟨.charBad, 0x1000, 0xFF00⟩]

/-- Rows 15 to 19 of R80. -/
def otherRows : List Row :=
  [⟨.crcinit, 0x2000, 0xFFFF⟩, ⟨.crcupd, 0x3000, 0xFF00⟩, ⟨.rdreg, 0x4000, 0xFFF8⟩,
   ⟨.wrctl, 0x5000, 0xFFFC⟩, ⟨.rdtbl, 0x6000, 0xFF00⟩]

/-- The nineteen rows of R80, in their order. -/
def opcodeTable : List Row := charRows ++ otherRows

/-- R76: the first row that matches. -/
def firstRow (rows : List Row) (cw : Word) : Option Row := rows.find? (·.hits cw)

/-- The operand field `imm8`, bits 7:0 (R71, R72). -/
def imm8 (cw : Word) : Byte := cw.extractLsb' 0 8

/-- The opcode field `OP`, bits 15:12 (R70). -/
def opField (cw : Word) : BitVec 4 := cw.extractLsb' 12 4

/-- The command of an operation, its operands taken as they stand in the word (R71, R72, R77). -/
def withOperands (op : Op) (cw : Word) : Instr :=
  match op with
  | .nop => .nop
  | .charLf => .charLf
  | .charCr => .charCr
  | .charHex => .charHex (imm8 cw)
  | .charBad => .charBad (imm8 cw)
  | .crcinit => .crcinit
  | .crcupd => .crcupd (imm8 cw)
  | .rdreg => .rdreg (Machine.regOfIndex (cw.extractLsb' 0 3))
  | .wrctl => .wrctl (cw.getLsbD 1) (cw.getLsbD 0)
  | .rdtbl => .rdtbl (imm8 cw)

/-- The name of an illegal word: opcodes 0x7 to 0xF are unassigned (R83), below them a reserved bit is set (R82). -/
def illegalReason (cw : Word) : IllegalWord :=
  if opField cw < 7#4 then .reservedBits else .unassignedOpcode

/-- R76: decoding is total, reads no state, and rejects by name (R81). -/
def decode (cw : Word) : Except IllegalWord Instr :=
  match firstRow opcodeTable cw with
  | some r => .ok (withOperands r.op cw)
  | none => .error (illegalReason cw)

/-- A word from its opcode and its low byte, the bits between them zero (R70, R71). -/
def commandWord (op : BitVec 4) (low : Byte) : Word := op ++ 0#4 ++ low

/-- The word of a command (R71, R86). -/
def encode : Instr → Word
  | .nop => commandWord 0x0 0
  | .charLf => commandWord 0x1 Config.terminator
  | .charCr => commandWord 0x1 Config.ignoredByte
  | .charHex c => commandWord 0x1 c
  | .charBad c => commandWord 0x1 c
  | .crcinit => commandWord 0x2 0
  | .crcupd b => commandWord 0x3 b
  | .rdreg r => commandWord 0x4 ((Machine.regIndex r).setWidth 8)
  | .wrctl swap sev => commandWord 0x5 (0#6 ++ BitVec.ofBool swap ++ BitVec.ofBool sev)
  | .rdtbl i => commandWord 0x6 i

/-- The command word whose low `nbits` bits are `w` and whose other bits are 0. A command is one 16-bit word,
transferred whole, so there is no byte order to lay it out in (R58, R70). -/
def tableWord (nbits w : Nat) : Word := BitVec.ofNat 16 (w % 2 ^ nbits)

/-- What the decoder reads from an opcode-table word. No command is longer than 16 bits (R70). -/
def decodeTableWord (nbits w : Nat) : Option Instr :=
  if nbits ≤ 16 then (decode (tableWord nbits w)).toOption else none

end Sys2Proof
end

