-- ==== Sys2Proof/Machine/State.lean ====
section
/-! DEFINITION. The state of the block (spec/10_state.md R20 to R43: 165 bits, "Nothing else is state"), its two ports, and
the state after reset (spec/70_reset_and_hazards.md R191). A one-bit field is a Bool: true is 1. -/

namespace Sys2Proof.Machine

/-- The frame path: the state a frame in progress uses (R20 to R28). -/
structure FramePath where
  /-- PH, the pairing phase: true when one data character is held (R20). -/
  ph    : Bool
  /-- HN, the held nibble (R21). -/
  hn    : Nibble
  /-- HBAD, the held character is not a hex digit (R22). -/
  hbad  : Bool
  /-- FCRC, the CRC of the bytes that have left the delay line (R23). -/
  fcrc  : Word
  /-- PEN, the decoded byte before the last (R24). -/
  pen   : Byte
  /-- ULT, the last decoded byte (R24). -/
  ult   : Byte
  /-- DLN, how many bytes of the delay line are valid: 0, 1 or 2 (R24). -/
  dln   : BitVec 2
  /-- BCNT, the bytes decoded in this frame, saturating (R26). -/
  bcnt  : Word
  /-- FBOVF, an increment found BCNT at 0xFFFF (R26). -/
  fbovf : Bool
  /-- ECNT, the failing pairs of this frame, saturating (R27). -/
  ecnt  : Word
  /-- FEOVF, an increment found ECNT at 0xFFFF (R27). -/
  feovf : Bool
deriving DecidableEq, Repr

/-- R28: the empty frame path. -/
def FramePath.empty : FramePath where
  ph := false
  hn := 0
  hbad := false
  fcrc := Config.crcStart
  pen := 0
  ult := 0
  dln := 0
  bcnt := 0
  fbovf := false
  ecnt := 0
  feovf := false

/-- The five result registers, which describe the last ended frame (R38 to R43). -/
structure Results where
  /-- R_FLAGS, register 3, its eight bits as R31 numbers them (R38). -/
  rFlags : BitVec 8
  /-- R_CRCC, register 4, the computed CRC (R39). -/
  rCrcc  : Word
  /-- R_CRCR, register 5, the carried CRC (R40). -/
  rCrcr  : Word
  /-- R_BCNT, register 6, the byte count (R41). -/
  rBcnt  : Word
  /-- R_ECNT, register 7, the final error count (R42). -/
  rEcnt  : Word
deriving DecidableEq, Repr

/-- What reaches the block from outside, one at a time. DESIGN CHOICE (log entries 1 and 3): the spec gives a command
port (R63) and a reset line (R190), not a data type for them. -/
inductive Input where
  /-- A command word presented on the command port (R63, R70). -/
  | command (cw : Word)
  /-- One assertion and release of reset (R190). -/
  | reset
deriving DecidableEq, Repr

/-- The machine: the block's 165 bits of state, the inputs still to come and the events produced. -/
structure State where
  /-- The frame in progress (R20 to R28). -/
  frame   : FramePath
  /-- DCRC, register 2, the direct CRC accumulator (R29, R37). -/
  dcrc    : Word
  /-- CTRL.SEV, register 0 bit 0: false is log-only, true is reject (R35). -/
  sev     : Bool
  /-- CTRL.SWAP, register 0 bit 1: false is low byte first (R35). -/
  swap    : Bool
  /-- STATUS.ILL, register 1 bit 0, sticky (R32, R36). -/
  ill     : Bool
  /-- The results of the last ended frame (R38 to R43). -/
  results : Results
  /-- The command port and the reset line: the inputs not yet accepted, oldest first (the model's own, log entry 1). -/
  inputs  : List Input
  /-- The event port: the event words produced, oldest first (the model's own, log entry 2). -/
  events  : List EventWord
deriving DecidableEq, Repr

/-- Why the machine stops. It never does: "There is no fault state, no stuck state and no halt" (R12), so the type has
no constructor and nobody raises a fault. -/
inductive Fault where
deriving DecidableEq, Repr

/-- Why an instruction has no meaning. -/
inductive Refusal where
  /-- Raised by an arm of `exec` for an instruction without a meaning; safe (the run stops). No arm raises it: all ten
  operations have their meaning. -/
  | notModelled (mnemonic : String)
deriving DecidableEq, Repr

/-- R191: the machine right after reset, every value the spec's; no input waits and no event has been produced. -/
def State.reset : State where
  frame := FramePath.empty
  dcrc := Config.crcStart
  sev := false
  swap := false
  ill := false
  results := { rFlags := 0, rCrcc := 0, rCrcr := 0, rBcnt := 0, rEcnt := 0 }
  inputs := []
  events := []

end Sys2Proof.Machine
end

