-- ==== Sys2Proof/Machine/Flags.lean ====
section
/-! DEFINITION. Saturating counting and every flag computation: the frame result flags and what CHAR.LF derives them from
(spec/10_state.md R26, R27, R31, R32; spec/41_hex_frame.md R130 to R133). -/

namespace Sys2Proof.Machine

/-- R8 `sat_inc`. -/
def satInc (v : Word) : Word := if v ≠ Config.counterMax then v + 1 else Config.counterMax

/-- An increment attempted at this value overflows (R26, R27). -/
def satFull (v : Word) : Bool := v == Config.counterMax

/-- R130 `e`: the final error count, one more than ECNT when a character is left over (R131). -/
def finalErrors (f : FramePath) : Word := if f.ph then satInc f.ecnt else f.ecnt

/-- R130 `eovf`. -/
def errorsOverflow (f : FramePath) : Bool := f.feovf || (f.ph && satFull f.ecnt)

/-- R130 `chk`: the frame has two bytes to compare (R132). -/
def checkable (f : FramePath) : Bool := f.dln == 2

/-- R130 `crcr`: the carried CRC in the order CTRL.SWAP selects, 0 when there is none (R56, R132). -/
def carriedCrc (swap : Bool) (f : FramePath) : Word :=
  if checkable f then (if swap then f.pen ++ f.ult else f.ult ++ f.pen) else 0

/-- R130 `match`. -/
def crcMatches (swap : Bool) (f : FramePath) : Bool := checkable f && f.fcrc == carriedCrc swap f

/-- R130 `acc`: a checked frame is accepted when it matches or the severity is log-only (R133). -/
def accepted (sev swap : Bool) (f : FramePath) : Bool := checkable f && (crcMatches swap f || !sev)

/-- The R_FLAGS byte, bit 7 first and always 0 (R31, R130). -/
def packFlags (eovf bovf hexerr odd accept matched chk : Bool) : BitVec 8 :=
  0#1 ++ BitVec.ofBool eovf ++ BitVec.ofBool bovf ++ BitVec.ofBool hexerr ++ BitVec.ofBool odd ++
    BitVec.ofBool accept ++ BitVec.ofBool matched ++ BitVec.ofBool chk

/-- R130 `flags`: the flags of the frame that ends now. -/
def frameFlags (sev swap : Bool) (f : FramePath) : BitVec 8 :=
  packFlags (errorsOverflow f) f.fbovf (finalErrors f != 0) f.ph (accepted sev swap f) (crcMatches swap f) (checkable f)

/-- R32 BUSY, computed at the moment of the read: a frame is in progress. -/
def busy (f : FramePath) : Bool := f.ph || f.bcnt != 0

end Sys2Proof.Machine
end

