-- ==== Sys2Proof/Machine/Ops.lean ====
section
/-! DEFINITION. The shared operations: events, the frame path's pairing and delay line, the end of a frame, the register
map, the illegal-word report and reset. The block has no memory (spec/20_memory.md R51) and takes no exception
(spec/60_exceptions.md R172, R180): what stands for exception entry is `raiseIllegal` (R173); there is no return (R182). -/

namespace Sys2Proof.Machine

/-- The kinds of events (spec/30_encoding.md R74). -/
inductive EventKind where
  | byte | fend | rval | ill
deriving DecidableEq, Repr

/-- R74: the KIND field. -/
def kindCode : EventKind → BitVec 4
  | .byte => 0x1
  | .fend => 0x2
  | .rval => 0x3
  | .ill => 0xF

/-- R73: an event word, KIND in bits 19:16 and PAY in bits 15:0. -/
def eventWord (k : EventKind) (pay : Word) : EventWord := kindCode k ++ pay

/-- R10 `emit`: one event word on the event port, behind the earlier ones (R64). -/
def emit (k : EventKind) (pay : Word) (s : State) : State := { s with events := s.events ++ [eventWord k pay] }

/-- R122 `hold`: the first character of a pair. -/
def hold (c : Byte) (f : FramePath) : FramePath :=
  match hexVal c with
  | some v => { f with hn := v, hbad := false, ph := true }
  | none => { f with hn := 0, hbad := true, ph := true }

/-- R123 `bad`: the pair that `c` completes has a character that is not a hex digit. -/
def pairFails (c : Byte) (f : FramePath) : Bool := f.hbad || !isHex c

/-- R123 `b`: the byte of the pair that `c` completes, first character high (R55); the fallback byte when the pair fails. -/
def pairByte (c : Byte) (f : FramePath) : Byte :=
  match f.hbad, hexVal c with
  | false, some v => f.hn ++ v
  | _, _ => Config.fallbackByte

/-- R123: one count of the error counter. -/
def countError (f : FramePath) : FramePath := { f with feovf := f.feovf || satFull f.ecnt, ecnt := satInc f.ecnt }

/-- R124, the delay line: the byte that leaves it, and only that byte, enters FCRC. -/
def shiftDelay (b : Byte) (f : FramePath) : FramePath :=
  if f.dln = 2 then { f with fcrc := crcUpd f.fcrc f.pen, pen := f.ult, ult := b }
  else if f.dln = 1 then { f with pen := f.ult, ult := b, dln := 2 }
  else if f.dln = 0 then { f with ult := b, dln := 1 }
  else f

/-- R124, the byte counter. -/
def countByte (f : FramePath) : FramePath := { f with fbovf := f.fbovf || satFull f.bcnt, bcnt := satInc f.bcnt }

/-- R124 `push_byte`. -/
def pushByte (b : Byte) (f : FramePath) : FramePath := countByte (shiftDelay b f)

/-- R123 `complete`, the frame path: count a failing pair, push its byte, and hold nothing. -/
def completePair (c : Byte) (f : FramePath) : FramePath :=
  { pushByte (pairByte c f) (if pairFails c f then countError f else f) with ph := false, hn := 0, hbad := false }

/-- R127, R128: a data character is held, or completes its pair and its byte is reported. -/
def dataChar (c : Byte) (s : State) : State :=
  if s.frame.ph then
    emit .byte ((pairByte c s.frame).setWidth 16) { s with frame := completePair c s.frame }
  else { s with frame := hold c s.frame }

/-- R134: the five results of the frame that ends now. -/
def frameResults (sev swap : Bool) (f : FramePath) : Results where
  rFlags := frameFlags sev swap f
  rCrcc := f.fcrc
  rCrcr := carriedCrc swap f
  rBcnt := f.bcnt
  rEcnt := finalErrors f

/-- R130: latch the results, empty the frame path (R135), report. All values are those before the command (R9). -/
def endFrame (s : State) : State :=
  emit .fend ((frameFlags s.sev s.swap s.frame).setWidth 16)
    { s with results := frameResults s.sev s.swap s.frame, frame := FramePath.empty }

/-- R152: the value a read of a register returns. -/
def readReg (r : Reg) (s : State) : Word :=
  match r with
  | .ctrl => 0#14 ++ BitVec.ofBool s.swap ++ BitVec.ofBool s.sev
  | .status => 0#14 ++ BitVec.ofBool (busy s.frame) ++ BitVec.ofBool s.ill
  | .dcrc => s.dcrc
  | .rFlags => s.results.rFlags.setWidth 16
  | .rCrcc => s.results.rCrcc
  | .rCrcr => s.results.rCrcr
  | .rBcnt => s.results.rBcnt
  | .rEcnt => s.results.rEcnt

/-- R153: both fields of CTRL are always written. -/
def writeCtrl (swap sev : Bool) (s : State) : State := { s with swap := swap, sev := sev }

/-- R173 `raise Illegal(CW)`: the report of a word that encodes no command; nothing else changes. -/
def raiseIllegal (cw : Word) (s : State) : State := emit .ill cw { s with ill := true }

/-- R190 to R193: reset gives every bit of the block its reset value; the events already produced are not recalled, no
event is produced, and the inputs still to come stay. -/
def resetBlock (s : State) : State := { State.reset with inputs := s.inputs, events := s.events }

end Sys2Proof.Machine
end

