-- ==== Sys2Proof/Machine/CharCommands.lean ====
section
/-! DEFINITION. The meanings of the four CHAR operations (spec/41_hex_frame.md R127 to R137). -/

namespace Sys2Proof.Machine

/-- CHAR.LF (R130): the frame ends. -/
def execCharLf (s : State) : Host.Outcome State Fault Refusal := .next (endFrame s)

/-- CHAR.CR (R129): the byte is dropped, nothing changes. -/
def execCharCr (s : State) : Host.Outcome State Fault Refusal := .next s

/-- CHAR.HEX (R127). -/
def execCharHex (c : Byte) (s : State) : Host.Outcome State Fault Refusal := .next (dataChar c s)

/-- CHAR.BAD (R128): the character is data like any other, and its pair fails. -/
def execCharBad (c : Byte) (s : State) : Host.Outcome State Fault Refusal := .next (dataChar c s)

end Sys2Proof.Machine
end

