-- ==== Sys2Proof/Machine/ControlCommands.lean ====
section
/-! DEFINITION. The meanings of NOP, RDREG and WRCTL (spec/42_control.md R150 to R153). -/

namespace Sys2Proof.Machine

/-- NOP (R150): no state changes, no event. -/
def execNop (s : State) : Host.Outcome State Fault Refusal := .next s

/-- RDREG (R151): reads have no side effect. -/
def execRdreg (r : Reg) (s : State) : Host.Outcome State Fault Refusal := .next (emit .rval (readReg r s) s)

/-- WRCTL (R153). -/
def execWrctl (swap sev : Bool) (s : State) : Host.Outcome State Fault Refusal := .next (writeCtrl swap sev s)

end Sys2Proof.Machine
end

