-- ==== Sys2Proof/Machine/CrcCommands.lean ====
section
/-! DEFINITION. The meanings of the direct CRC unit and of the table read-out (spec/40_crc16.md R109, R110, R112). -/

namespace Sys2Proof.Machine

/-- CRCINIT (R109). -/
def execCrcinit (s : State) : Host.Outcome State Fault Refusal := .next { s with dcrc := Config.crcStart }

/-- CRCUPD (R110). -/
def execCrcupd (b : Byte) (s : State) : Host.Outcome State Fault Refusal := .next { s with dcrc := crcUpd s.dcrc b }

/-- RDTBL (R112). -/
def execRdtbl (i : Byte) (s : State) : Host.Outcome State Fault Refusal := .next (emit .rval (tableEntry i) s)

end Sys2Proof.Machine
end

