-- ==== Sys2Proof/Machine/Dispatch.lean ====
section
/-! DEFINITION. One arm per command. -/

namespace Sys2Proof.Machine

def exec (i : Instr) (s : State) : Host.Outcome State Fault Refusal :=
  match i with
  | .nop => Sys2Proof.Machine.execNop s
  | .charLf => Sys2Proof.Machine.execCharLf s
  | .charCr => Sys2Proof.Machine.execCharCr s
  | .charHex c => Sys2Proof.Machine.execCharHex c s
  | .charBad c => Sys2Proof.Machine.execCharBad c s
  | .crcinit => Sys2Proof.Machine.execCrcinit s
  | .crcupd b => Sys2Proof.Machine.execCrcupd b s
  | .rdreg r => Sys2Proof.Machine.execRdreg r s
  | .wrctl swap sev => Sys2Proof.Machine.execWrctl swap sev s
  | .rdtbl k => Sys2Proof.Machine.execRdtbl k s

end Sys2Proof.Machine
end

