-- ==== Sys2Proof/Machine/Step.lean ====
section
/-! DEFINITION. One step (spec/00_scope.md R12, spec/20_memory.md R63): accept the oldest input and do what it asks. -/

namespace Sys2Proof.Machine

/-- A command word is decoded before anything is executed (R179): a command runs, any other word is reported (R81). -/
def runWord (cw : Word) (s : State) : Host.Outcome State Fault Refusal :=
  match decode cw with
  | .ok i => exec i s
  | .error _ => .next (raiseIllegal cw s)

/-- One step. With no input waiting the command port is idle and nothing changes (R150, R186); a command word is
consumed, legal or not (R81); reset discards the frame in progress and everything else (R190 to R192). -/
def step (s : State) : Host.Outcome State Fault Refusal :=
  match s.inputs with
  | [] => .next s
  | .command cw :: rest => runWord cw { s with inputs := rest }
  | .reset :: rest => .next (resetBlock { s with inputs := rest })

/-- The state in which the next input is this opcode-table word: the block fetches nothing (R66), the host presents the
word on the command port, so it is put in front of the inputs still to come. -/
def State.withFetchWord (s : State) (nbits w : Nat) : State :=
  { s with inputs := .command (tableWord nbits w) :: s.inputs }

end Sys2Proof.Machine
end

