-- ==== Sys2Proof/Machine/Assembler.lean ====
section
/-! DEFINITION. The spec's notation for commands and events (spec/30_encoding.md R85 to R90): lines, the words they assemble
to, the pseudo-commands, and how an event is written. Text is a list of characters. -/

namespace Sys2Proof.Machine

/-- A line of R85 to R89, its numbers as written. -/
inductive AsmLine where
  | nop | crcinit
  | char (c : Nat) | crcupd (b : Nat) | rdreg (r : Nat) | wrctl (v : Nat) | rdtbl (i : Nat)
  | word (w : Nat)
  | text (s : List Byte) | frame (s : List Byte)
  | crc16 (bytes : List Nat)
deriving DecidableEq, Repr

/-- Why a line assembles to nothing (R86: an assembler error, not an illegal command). -/
inductive AsmError where
  | unknownMnemonic | badOperand | outOfRange
deriving DecidableEq, Repr

/-- R85: the assembler chooses the class of a `char` from the operand's value. -/
def charInstr (c : Byte) : Instr :=
  match charClass c with
  | .lf => .charLf
  | .cr => .charCr
  | .hex => .charHex c
  | .bad => .charBad c

/-- R86: an operand below `bound`, as `w` bits. -/
def operandBelow (bound w n : Nat) : Except AsmError (BitVec w) :=
  if n < bound then .ok (BitVec.ofNat w n) else .error .outOfRange

/-- R87 `text`: one `char` per byte, in order. -/
def textWords (s : List Byte) : List Word := s.map fun c => encode (charInstr c)

/-- R89: the CRCUPD words of a list of operands. -/
def crcupdWords : List Nat → Except AsmError (List Word)
  | [] => .ok []
  | n :: ns =>
    match operandBelow 256 8 n, crcupdWords ns with
    | .ok b, .ok ws => .ok (encode (.crcupd b) :: ws)
    | .error e, _ => .error e
    | _, .error e => .error e

/-- R86 to R89: the words of a line. -/
def assemble : AsmLine → Except AsmError (List Word)
  | .nop => .ok [encode .nop]
  | .crcinit => .ok [encode .crcinit]
  | .char c => (operandBelow 256 8 c).map fun c => [encode (charInstr c)]
  | .crcupd b => (operandBelow 256 8 b).map fun b => [encode (.crcupd b)]
  | .rdreg r => (operandBelow 8 3 r).map fun r => [encode (.rdreg (regOfIndex r))]
  | .wrctl v => (operandBelow 4 2 v).map fun v => [encode (.wrctl (v.getLsbD 1) (v.getLsbD 0))]
  | .rdtbl i => (operandBelow 256 8 i).map fun i => [encode (.rdtbl i)]
  | .word w => (operandBelow 65536 16 w).map fun w => [w]
  | .text s => .ok (textWords s)
  | .frame s => .ok (textWords (s ++ [Config.terminator]))
  | .crc16 bytes => (crcupdWords bytes).map fun ws => encode .crcinit :: ws ++ [encode (.rdreg .dcrc)]

/-- A space or a tab. -/
def isBlank (c : Char) : Bool := c == ' ' || c == '\t'

/-- The ASCII code of a character, when it has one. -/
def asciiByte (c : Char) : Option Byte := if c.toNat < 128 then some (BitVec.ofNat 8 c.toNat) else none

/-- The value of a digit in base 10 or 16. -/
def digitVal (base : Nat) (c : Char) : Option Nat :=
  (asciiByte c).bind fun b => (hexVal b).bind fun v => if v.toNat < base then some v.toNat else none

/-- A number from its digits, most significant first. -/
def digitsVal (base : Nat) : Nat → List Char → Option Nat
  | acc, [] => some acc
  | acc, c :: cs => (digitVal base c).bind fun v => digitsVal base (acc * base + v) cs

/-- R85: decimal, or hexadecimal with `0x`. -/
def parseNumber : List Char → Option Nat
  | [] => none
  | '0' :: 'x' :: c :: cs => digitsVal 16 0 (c :: cs)
  | c :: cs => digitsVal 10 0 (c :: cs)

/-- Without the blanks around it. -/
def trimBlanks (cs : List Char) : List Char := ((cs.dropWhile isBlank).reverse.dropWhile isBlank).reverse

/-- R85: `#` starts a comment. -/
def dropComment (cs : List Char) : List Char := cs.takeWhile (· != '#')

/-- Nothing but blanks and a comment follows. -/
def lineEnds (cs : List Char) : Bool := (dropComment cs).all isBlank

/-- The numbers between commas, none for an empty operand. -/
def parseNumbers (cs : List Char) : Option (List Nat) :=
  if (trimBlanks cs).isEmpty then some [] else (cs.splitOn ',').mapM fun w => parseNumber (trimBlanks w)

/-- R87: the bytes of a string up to its closing quote, with `\r`, `\n` and `\xHH`; then nothing but a comment. -/
def parseString : List Char → Option (List Byte)
  | [] => none
  | '"' :: rest => if lineEnds rest then some [] else none
  | '\\' :: 'r' :: rest => (parseString rest).map (Config.ignoredByte :: ·)
  | '\\' :: 'n' :: rest => (parseString rest).map (Config.terminator :: ·)
  | '\\' :: 'x' :: hi :: lo :: rest =>
    match digitsVal 16 0 [hi, lo], parseString rest with
    | some v, some bs => some (BitVec.ofNat 8 v :: bs)
    | _, _ => none
  | '\\' :: _ => none
  | c :: rest =>
    match asciiByte c, parseString rest with
    | some b, some bs => some (b :: bs)
    | _, _ => none

/-- R86: a register's number or its name. -/
def parseRegister (cs : List Char) : Option Nat :=
  match cs with
  | ['C', 'T', 'R', 'L'] => some 0
  | ['S', 'T', 'A', 'T', 'U', 'S'] => some 1
  | ['D', 'C', 'R', 'C'] => some 2
  | ['R', '_', 'F', 'L', 'A', 'G', 'S'] => some 3
  | ['R', '_', 'C', 'R', 'C', 'C'] => some 4
  | ['R', '_', 'C', 'R', 'C', 'R'] => some 5
  | ['R', '_', 'B', 'C', 'N', 'T'] => some 6
  | ['R', '_', 'E', 'C', 'N', 'T'] => some 7
  | _ => parseNumber cs

/-- A mnemonic in lower or upper case (R85). -/
def spells (m name : List Char) : Bool := m == name || m == name.map Char.toUpper

/-- The operand of a mnemonic, as a line. -/
def parseOperand (m rest : List Char) : Except AsmError AsmLine :=
  let plain := trimBlanks (dropComment rest)
  let number (f : Nat → AsmLine) := ((parseNumber plain).map f).elim (.error .badOperand) Except.ok
  let bytes (f : List Byte → AsmLine) :=
    match rest.dropWhile isBlank with
    | '"' :: cs => ((parseString cs).map f).elim (.error .badOperand) Except.ok
    | _ => .error .badOperand
  let none' (l : AsmLine) := if plain.isEmpty then .ok l else .error .badOperand
  if spells m ['n', 'o', 'p'] then none' .nop
  else if spells m ['c', 'r', 'c', 'i', 'n', 'i', 't'] then none' .crcinit
  else if spells m ['c', 'h', 'a', 'r'] then
    match rest.dropWhile isBlank with
    | '\'' :: c :: '\'' :: cs =>
      match asciiByte c with
      | some b => if lineEnds cs then .ok (.char b.toNat) else .error .badOperand
      | none => .error .badOperand
    | _ => number .char
  else if spells m ['c', 'r', 'c', 'u', 'p', 'd'] then number .crcupd
  else if spells m ['r', 'd', 'r', 'e', 'g'] then
    ((parseRegister plain).map AsmLine.rdreg).elim (.error .badOperand) Except.ok
  else if spells m ['w', 'r', 'c', 't', 'l'] then number .wrctl
  else if spells m ['r', 'd', 't', 'b', 'l'] then number .rdtbl
  else if spells m ['.', 'w', 'o', 'r', 'd'] then number .word
  else if spells m ['t', 'e', 'x', 't'] then bytes .text
  else if spells m ['f', 'r', 'a', 'm', 'e'] then bytes .frame
  else if spells m ['c', 'r', 'c', '1', '6'] then
    ((parseNumbers plain).map AsmLine.crc16).elim (.error .badOperand) Except.ok
  else .error .unknownMnemonic

/-- R85: the words of one line of text: a mnemonic, then its operand; a line without a mnemonic assembles to nothing. -/
def assembleLine (line : List Char) : Except AsmError (List Word) :=
  if lineEnds line then .ok []
  else
    let body := line.dropWhile isBlank
    let ends (c : Char) := isBlank c || c == '#'
    (parseOperand (body.takeWhile (!ends ·)) (body.dropWhile (!ends ·))).bind assemble

/-- R85: one command per line. -/
def assembleLines (lines : List (List Char)) : Except AsmError (List Word) :=
  (lines.mapM assembleLine).map List.flatten

/-- R74: the kind of an event word. -/
def eventKind (ev : EventWord) : Option EventKind :=
  [EventKind.byte, .fend, .rval, .ill].find? fun k => kindCode k == ev.extractLsb' 16 4

/-- A hexadecimal digit as R90 writes it. -/
def hexChar (v : Nibble) : Char := Char.ofNat (if v < 10#4 then 0x30 + v.toNat else 0x37 + v.toNat)

/-- R90: an event as it is written: two digits for BYTE and FEND, four for RVAL and ILL. -/
def renderEvent (ev : EventWord) : Option (List Char) :=
  let two := [hexChar (ev.extractLsb' 4 4), hexChar (ev.extractLsb' 0 4)]
  let four := hexChar (ev.extractLsb' 12 4) :: hexChar (ev.extractLsb' 8 4) :: two
  (eventKind ev).map fun
    | .byte => ['B', 'Y', 'T', 'E', '(', '0', 'x'] ++ two ++ [')']
    | .fend => ['F', 'E', 'N', 'D', '(', '0', 'x'] ++ two ++ [')']
    | .rval => ['R', 'V', 'A', 'L', '(', '0', 'x'] ++ four ++ [')']
    | .ill => ['I', 'L', 'L', '(', '0', 'x'] ++ four ++ [')']

end Sys2Proof.Machine
end

