-- ==== Sys2Proof/Safety.lean ====
section
/-! DEFINITION. The terms claims use: what a frame's text decodes to (spec/41_hex_frame.md R138), the frame path a text leads
to (spec/10_state.md R23 to R27), the invariants (R25, spec/60_exceptions.md R178), the format of events
(spec/30_encoding.md R73, R74), and the outcome of a run (spec/70_reset_and_hazards.md R204). -/

namespace Sys2Proof.Safety

open Sys2Proof.Machine

/-- R138 (a): the byte of a pair of characters. -/
def textByte (a b : Byte) : Byte :=
  match hexVal a, hexVal b with
  | some x, some y => x ++ y
  | _, _ => Config.fallbackByte

/-- R138 (a): the bytes of a frame's text; a leftover character forms none. -/
def decodedBytes : List Byte → List Byte
  | a :: b :: rest => textByte a b :: decodedBytes rest
  | _ => []

/-- R138 (b): how many pairs of a frame's text fail. -/
def failingPairs : List Byte → Nat
  | a :: b :: rest => (if isHex a && isHex b then 0 else 1) + failingPairs rest
  | _ => 0

/-- The leftover character of a text with an odd number of characters (R14). -/
def leftoverChar : List Byte → Option Byte
  | [] => none
  | [a] => some a
  | _ :: _ :: rest => leftoverChar rest

/-- A count in a 16-bit counter that saturates (R26, R27). -/
def saturated (n : Nat) : Word := BitVec.ofNat 16 (min n 0xFFFF)

/-- R138: the text of a frame, its bytes without carriage returns. -/
def frameText (stream : List Byte) : List Byte := stream.filter (· != Config.ignoredByte)

/-- The frame path after the data characters of a text, read from R20 to R27: what is held, the CRC of all decoded bytes but
the last two, these two, and the two counts. -/
def frameOf (text : List Byte) : FramePath where
  ph := (leftoverChar text).isSome
  hn := ((leftoverChar text).bind hexVal).getD 0
  hbad := ((leftoverChar text).map fun c => !isHex c).getD false
  fcrc := crc16 ((decodedBytes text).take ((decodedBytes text).length - 2))
  pen := ((decodedBytes text).reverse.drop 1).headD 0
  ult := (decodedBytes text).reverse.headD 0
  dln := BitVec.ofNat 2 (min (decodedBytes text).length 2)
  bcnt := saturated (decodedBytes text).length
  fbovf := decide (0xFFFF < (decodedBytes text).length)
  ecnt := saturated (failingPairs text)
  feovf := decide (0xFFFF < failingPairs text)

/-- R25: the invariants of the frame path that one state shows ((f) and (g) as far as they do not speak of the past). -/
structure FrameInv (f : FramePath) : Prop where
  notHeld      : f.ph = false → f.hn = 0 ∧ f.hbad = false
  badHeld      : f.hbad = true → f.hn = 0
  delayLegal   : f.dln ≠ 3
  delayEmpty   : f.dln = 0 → f.pen = 0 ∧ f.ult = 0 ∧ f.bcnt = 0 ∧ f.fcrc = 0xFFFF
  delayOne     : f.dln = 1 → f.pen = 0 ∧ f.bcnt = 1 ∧ f.fcrc = 0xFFFF
  delayFull    : f.dln = 2 ↔ 2 ≤ f.bcnt.toNat
  bytesFull    : f.fbovf = true → f.bcnt = 0xFFFF
  errorsFull   : f.feovf = true → f.ecnt = 0xFFFF
  errorsBelow  : f.fbovf = false → f.ecnt.toNat ≤ f.bcnt.toNat

/-- R31, R178, R39, R40, R171: how the result registers of one frame hang together. -/
structure ResultsInv (r : Results) : Prop where
  reserved     : r.rFlags.getLsbD 7 = false
  matchChecked : r.rFlags.getLsbD 1 = true → r.rFlags.getLsbD 0 = true
  matchAccept  : r.rFlags.getLsbD 1 = true → r.rFlags.getLsbD 2 = true
  acceptCheck  : r.rFlags.getLsbD 2 = true → r.rFlags.getLsbD 0 = true
  oddIsError   : r.rFlags.getLsbD 3 = true → r.rFlags.getLsbD 4 = true
  hexErr       : r.rFlags.getLsbD 4 = true ↔ r.rEcnt ≠ 0
  bytesOver    : r.rFlags.getLsbD 5 = true → r.rBcnt = 0xFFFF
  errorsOver   : r.rFlags.getLsbD 6 = true → r.rFlags.getLsbD 4 = true ∧ r.rEcnt = 0xFFFF
  matchEqual   : r.rFlags.getLsbD 0 = true → (r.rFlags.getLsbD 1 = true ↔ r.rCrcc = r.rCrcr)
  unchecked    : r.rFlags.getLsbD 0 = false → r.rCrcr = 0 ∧ r.rBcnt.toNat < 2

/-- The KIND field of an event word (R73). -/
def evKind (ev : EventWord) : BitVec 4 := ev.extractLsb' 16 4

/-- The PAY field of an event word (R73). -/
def evPay (ev : EventWord) : Word := ev.extractLsb' 0 16

/-- R73, R74: the event words that are ever produced. -/
structure EventFormat (ev : EventWord) : Prop where
  kind : evKind ev = 0x1 ∨ evKind ev = 0x2 ∨ evKind ev = 0x3 ∨ evKind ev = 0xF
  byte : evKind ev = 0x1 → (evPay ev).toNat < 256
  fend : evKind ev = 0x2 → (evPay ev).toNat < 128

/-- The inputs that feed a stream of bytes, one CHAR each (R87). -/
def feed (stream : List Byte) : List Input := (textWords stream).map .command

/-- A digit of `v`, in upper or lower case. -/
def IsDigitOf (h : Char) (v : Nibble) : Prop := h = hexChar v ∨ h = (hexChar v).toLower

/-- R87: an escape of a string, and the byte it stands for: `\r`, `\n`, and `\xHH` with the two digits of the byte, as R90
writes them. -/
def EscapeSpells (cs : List Char) (b : Byte) : Prop :=
  (cs = ['\\', 'r'] ∧ b = 0x0D) ∨ (cs = ['\\', 'n'] ∧ b = 0x0A) ∨
  cs = ['\\', 'x', hexChar (b.extractLsb' 4 4), hexChar (b.extractLsb' 0 4)]

/-- The characters that spell a byte in a string: an escape, its digits in either case, or an ASCII character that is neither
the quote nor the backslash. DESIGN CHOICE beyond R87's escapes (log entry 13). -/
def CharactersSpell (cs : List Char) (b : Byte) : Prop :=
  EscapeSpells cs b ∨
  (∃ h l, cs = ['\\', 'x', h, l] ∧ IsDigitOf h (b.extractLsb' 4 4) ∧ IsDigitOf l (b.extractLsb' 0 4)) ∨
  ∃ c : Char, cs = [c] ∧ c ≠ '"' ∧ c ≠ '\\' ∧ c.toNat < 128 ∧ b = BitVec.ofNat 8 c.toNat

/-- R204: a run is a finite sequence of command words applied from the reset state. -/
def outcome (words : List Word) : Host.Outcome State Fault Refusal :=
  Sys2Proof.core.run words.length { State.reset with inputs := words.map .command }

end Sys2Proof.Safety
end

