-- ==== Sys2Proof/Certificates/Slice0/Obligations.lean ====
section
/-! DEFINITION. The statements for the provers. Each cites the rule of spec/ it formalises; what the spec marks as derived
is stated as derived. Literals are the spec's own values wherever it prints one. -/

open Sys2Proof Sys2Proof.Machine Sys2Proof.Safety

/-! ### Encoding -/

/-- R80, R86: the word of every well-formed command decodes to that command, with every operand it admits. -/
def Obligations.DecodeOfEncodeGivesTheCommandBack : Prop :=
  ∀ i : Instr, i.wf = true → decode (encode i) = .ok i

/-- R76, R80, R86: every word that decodes is the word of exactly the command it decodes to, which is well formed. -/
def Obligations.EncodeOfDecodeGivesTheWordBack : Prop :=
  ∀ (cw : Word) (i : Instr), decode cw = .ok i → i.wf = true ∧ encode i = cw

/-- R80, R86: words written out from the spec's formats, one for each operation, decode to their commands. -/
def Obligations.PrintedWordsDecodeAsTheSpecSays : Prop :=
  decode 0b0000000000000000 = .ok .nop ∧
  decode 0b0001000000001010 = .ok .charLf ∧
  decode 0b0001000000001101 = .ok .charCr ∧
  decode 0b0001000001000001 = .ok (.charHex 0x41) ∧
  decode 0b0001000001011010 = .ok (.charBad 0x5A) ∧
  decode 0b0010000000000000 = .ok .crcinit ∧
  decode 0b0011000010100101 = .ok (.crcupd 0xA5) ∧
  decode 0b0100000000000100 = .ok (.rdreg .rCrcc) ∧
  decode 0b0101000000000010 = .ok (.wrctl true false) ∧
  decode 0b0110000010000000 = .ok (.rdtbl 0x80)

/-- R75: the class of a character decides its operation; the classes have 1, 1, 22 and 232 members. -/
def Obligations.CharWordsDecodeByClass : Prop :=
  (∀ c : Byte, decode (0x1000#16 + c.setWidth 16) = .ok (
    if c = 0x0A then .charLf
    else if c = 0x0D then .charCr
    else if (0x30 ≤ c ∧ c ≤ 0x39) ∨ (0x41 ≤ c ∧ c ≤ 0x46) ∨ (0x61 ≤ c ∧ c ≤ 0x66) then .charHex c
    else .charBad c)) ∧
  ([CharClass.lf, .cr, .hex, .bad].map fun k => (List.range 256).countP fun n => charClass (BitVec.ofNat 8 n) = k) =
    [1, 1, 22, 232]

/-- R76: a word is decoded by the first row that matches and is illegal when none does; the rows are disjoint but for
CHAR.BAD, which overlaps every other CHAR row; any order that keeps CHAR.BAD behind the other CHAR rows decodes alike. -/
def Obligations.RowsDecodeAlikeInEveryOrderWithBadLast : Prop :=
  (∀ cw r, firstRow opcodeTable cw = some r → decode cw = .ok (withOperands r.op cw)) ∧
  (∀ cw, (∃ w, decode cw = .error w) ↔ ∀ r ∈ opcodeTable, cw &&& r.mask ≠ r.pattern) ∧
  (opcodeTable.filter (·.op ≠ .charBad)).Pairwise (fun a b => ∀ cw, ¬ (a.hits cw ∧ b.hits cw)) ∧
  (∀ r ∈ opcodeTable, r.op ≠ .charBad →
    ((∃ b ∈ opcodeTable, b.op = .charBad ∧ ∃ cw, r.hits cw ∧ b.hits cw) ↔ r.op ∈ [Op.charLf, .charCr, .charHex])) ∧
  (∀ rows : List Row, rows.Perm opcodeTable →
    rows.Pairwise (fun a b => a.op = .charBad → b.op ∉ [Op.charLf, .charCr, .charHex]) →
    ∀ cw, firstRow rows cw = firstRow opcodeTable cw)

/-- R82: a word with an assigned opcode is illegal exactly when a bit that its format (R71) marks 0 is 1. -/
def Obligations.ReservedBitsMakeAWordIllegal : Prop :=
  (∀ cw : Word, opField cw < 7 →
    ((∃ w, decode cw = .error w) ↔
      ((opField cw = 0 ∨ opField cw = 2) ∧ cw.extractLsb' 0 12 ≠ 0) ∨
      ((opField cw = 1 ∨ opField cw = 3 ∨ opField cw = 6) ∧ cw.extractLsb' 8 4 ≠ 0) ∨
      (opField cw = 4 ∧ cw.extractLsb' 3 9 ≠ 0) ∨
      (opField cw = 5 ∧ cw.extractLsb' 2 10 ≠ 0))) ∧
  (∀ cw ∈ [0x0001#16, 0x110A, 0x2001, 0x3100, 0x4008, 0x5004, 0x6100], ∃ w, decode cw = .error w)

/-- R83: opcodes 0x7 to 0xF are illegal, no word but NOP and CHAR.CR executes as a no-operation, and no word is without a
defined behaviour. -/
def Obligations.NoHintsAndNoUndefinedWords : Prop :=
  (∀ cw : Word, 0x7000 ≤ cw → ∃ w, decode cw = .error w) ∧
  (∀ cw : Word, (∀ s, runWord cw s = .next s) ↔ cw = 0x0000 ∨ cw = 0x100D) ∧
  (∀ (cw : Word) (s : State), ∃ t, runWord cw s = .next t)

/-- R73: KIND and PAY stand in bits 19:16 and 15:0 of an event word, the kinds have R74's codes, and no event word is all
zeros. -/
def Obligations.EventWordHoldsKindAndPayload : Prop :=
  (∀ k p, (eventWord k p).extractLsb' 16 4 = kindCode k ∧ (eventWord k p).extractLsb' 0 16 = p ∧ eventWord k p ≠ 0) ∧
  kindCode .byte = 0x1 ∧ kindCode .fend = 0x2 ∧ kindCode .rval = 0x3 ∧ kindCode .ill = 0xF

/-- R86: the word of every line of the assembler, and that an operand outside its range is an assembler error. -/
def Obligations.AssembledWordsAreTheSpecsWords : Prop :=
  assemble .nop = .ok [0x0000] ∧ assemble .crcinit = .ok [0x2000] ∧
  (∀ n, assemble (.char n) = if n ≤ 255 then .ok [0x1000 + BitVec.ofNat 16 n] else .error .outOfRange) ∧
  (∀ n, assemble (.crcupd n) = if n ≤ 255 then .ok [0x3000 + BitVec.ofNat 16 n] else .error .outOfRange) ∧
  (∀ n, assemble (.rdreg n) = if n ≤ 7 then .ok [0x4000 + BitVec.ofNat 16 n] else .error .outOfRange) ∧
  (∀ n, assemble (.wrctl n) = if n ≤ 3 then .ok [0x5000 + BitVec.ofNat 16 n] else .error .outOfRange) ∧
  (∀ n, assemble (.rdtbl n) = if n ≤ 255 then .ok [0x6000 + BitVec.ofNat 16 n] else .error .outOfRange) ∧
  (∀ n, assemble (.word n) = if n ≤ 65535 then .ok [BitVec.ofNat 16 n] else .error .outOfRange) ∧
  [['C', 'T', 'R', 'L'], ['S', 'T', 'A', 'T', 'U', 'S'], ['D', 'C', 'R', 'C'], ['R', '_', 'F', 'L', 'A', 'G', 'S'],
    ['R', '_', 'C', 'R', 'C', 'C'], ['R', '_', 'C', 'R', 'C', 'R'], ['R', '_', 'B', 'C', 'N', 'T'],
    ['R', '_', 'E', 'C', 'N', 'T']].map parseRegister = (List.range 8).map some

/-- R87, R88, R89: what the pseudo-commands expand to, that a text may be split at any point, and that in the string of a
line `\r` stands for 0x0D, `\n` for 0x0A and `\xHH` for any byte. -/
def Obligations.PseudoCommandsExpand : Prop :=
  (∀ a b : List Byte, textWords (a ++ b) = textWords a ++ textWords b) ∧
  (∀ s : List Byte, assemble (.text s) = .ok (s.map fun c => 0x1000 + c.setWidth 16)) ∧
  (∀ s : List Byte, assemble (.frame s) = .ok (s.map (fun c => 0x1000 + c.setWidth 16) ++ [0x100A])) ∧
  (∀ bs : List Nat, (∀ b ∈ bs, b ≤ 255) →
    assemble (.crc16 bs) = .ok (0x2000 :: bs.map (fun b => 0x3000 + BitVec.ofNat 16 b) ++ [0x4002])) ∧
  (∀ pieces : List (List Char × Byte), (∀ p ∈ pieces, EscapeSpells p.1 p.2) →
    let string := '"' :: pieces.flatMap (·.1) ++ ['"']
    let words := pieces.map fun p => 0x1000 + p.2.setWidth 16
    assembleLine ('t' :: 'e' :: 'x' :: 't' :: ' ' :: string) = .ok words ∧
    assembleLine ('f' :: 'r' :: 'a' :: 'm' :: 'e' :: ' ' :: string) = .ok (words ++ [0x100A]))

/-- R85, R87, R88 with the grammar of log entry 13 (a DESIGN CHOICE: where blanks stand, hexadecimal digits in both cases, a
plain ASCII character stands for its code): every line `text "s"` and `frame "s"`, in either case, with blanks and a comment
around it, assembles to the `char` of each byte its string spells. -/
def Obligations.StringLinesAssembleByteByByte : Prop :=
  ∀ (before gap after : List Char) (pieces : List (List Char × Byte)),
    before.all isBlank = true → gap.all isBlank = true → gap ≠ [] → lineEnds after = true →
    (∀ p ∈ pieces, CharactersSpell p.1 p.2) →
    let string := '"' :: pieces.flatMap (·.1) ++ '"' :: after
    let words := pieces.map fun p => 0x1000 + p.2.setWidth 16
    (∀ m ∈ [['t', 'e', 'x', 't'], ['T', 'E', 'X', 'T']], assembleLine (before ++ m ++ gap ++ string) = .ok words) ∧
    (∀ m ∈ [['f', 'r', 'a', 'm', 'e'], ['F', 'R', 'A', 'M', 'E']],
      assembleLine (before ++ m ++ gap ++ string) = .ok (words ++ [0x100A]))

/-! ### The step and reset -/

/-- The next word on the command port is consumed and run (R63); when it decodes to a command, the step is that command's
meaning. The port as a list of inputs is the model's choice (log entry 1). -/
def Obligations.StepRunsTheDecodedCommand : Prop :=
  ∀ (s : State) (cw : Word) (rest : List Input) (i : Instr),
    s.inputs = .command cw :: rest →
      step s = runWord cw { s with inputs := rest } ∧
      (decode cw = .ok i → step s = exec i { s with inputs := rest })

/-- R173: a word that matches no row of R80 sets ILL, emits ILL(CW), and changes nothing else. -/
def Obligations.IllegalWordIsOnlyReported : Prop :=
  ∀ (s : State) (cw : Word), (∀ r ∈ opcodeTable, cw &&& r.mask ≠ r.pattern) →
    runWord cw s = .next { s with ill := true, events := s.events ++ [0xF#4 ++ cw] }

/-- Every step has exactly one outcome, a next state (R12); it takes the oldest input, and produces no event or one, behind
the earlier ones (R10, R64); with no input nothing changes (R150, R186). The ports as lists are the model's choice (log entries
1 and 2). -/
def Obligations.EveryStepGoesOn : Prop :=
  ∀ s : State, ∃ t, step s = .next t ∧ t.inputs = s.inputs.tail ∧
    (t.events = s.events ∨ ∃ ev, t.events = s.events ++ [ev]) ∧ (s.inputs = [] → t = s)

/-- R190, R192, with reset as one input, the model's choice (log entry 3): whatever the block was doing, it then holds the
reset values; no event is produced and none is recalled. -/
def Obligations.ResetDiscardsTheFrameInProgress : Prop :=
  ∀ (s : State) (rest : List Input), s.inputs = .reset :: rest →
    ∃ t, step s = .next t ∧ t.inputs = rest ∧ t.events = s.events ∧ t.frame = FramePath.empty ∧
      t.dcrc = 0xFFFF ∧ t.sev = false ∧ t.swap = false ∧ t.ill = false ∧ t.results = ⟨0, 0, 0, 0, 0⟩

/-- R191: the reset value of every field, and what RDREG then returns. -/
def Obligations.ResetValuesAreTheSpecs : Prop :=
  (State.reset.frame.ph = false ∧ State.reset.frame.hn = 0x0 ∧ State.reset.frame.hbad = false ∧
    State.reset.frame.fcrc = 0xFFFF ∧ State.reset.frame.pen = 0x00 ∧ State.reset.frame.ult = 0x00 ∧
    State.reset.frame.dln = 0 ∧ State.reset.frame.bcnt = 0x0000 ∧ State.reset.frame.fbovf = false ∧
    State.reset.frame.ecnt = 0x0000 ∧ State.reset.frame.feovf = false) ∧
  (State.reset.dcrc = 0xFFFF ∧ State.reset.sev = false ∧ State.reset.swap = false ∧ State.reset.ill = false) ∧
  (State.reset.results.rFlags = 0x00 ∧ State.reset.results.rCrcc = 0x0000 ∧ State.reset.results.rCrcr = 0x0000 ∧
    State.reset.results.rBcnt = 0x0000 ∧ State.reset.results.rEcnt = 0x0000) ∧
  (∀ r, readReg r State.reset = if r = .dcrc then 0xFFFF else 0x0000)

/-! ### The CRC function -/

/-- From R103: the range function starts from 0xFFFF, takes `length` bytes from `start` in ascending order, and returns the
result as it stands. That it then answers no value beyond the array, where the function is undefined, is the model's reading
(log entry 11, DEDUCED). -/
def Obligations.RangeFunctionFoldsTheSelectedBytes : Prop :=
  ∀ (bytes : List Byte) (start length : Nat),
    (start + length ≤ bytes.length → crc16Range bytes start length =
      some (((List.range length).map fun k => bytes.getD (start + k) 0).foldl crcUpdShift 0xFFFF)) ∧
    (start ≤ bytes.length → crc16Range bytes start 0 = some 0xFFFF) ∧
    (bytes.length < start + length → crc16Range bytes start length = none)

/-- R105 (marked derived there): the table form equals the bit-shift form for every accumulator and every byte. -/
def Obligations.TableFormEqualsShiftForm : Prop :=
  ∀ (c : Word) (b : Byte), crcUpd c b = crcUpdShift c b

/-- R104 (marked derived there): every entry of the printed table is what the bit-shift form generates. -/
def Obligations.TableIsWhatTheShiftFormGenerates : Prop :=
  ∀ i : Byte, tableEntry i = crcUpdShift 0x0000 i

/-- R106 (a) to (e) (marked derived there): the laws of the CRC arithmetic. -/
def Obligations.CrcLaws : Prop :=
  crc16 [] = 0xFFFF ∧
  (∀ b : Byte, Function.Bijective fun c => crcUpd c b) ∧
  (∀ (c d : Word) (b : Byte), crcUpd (c ^^^ d) b = crcUpd c b ^^^ crcUpd d 0x00) ∧
  (∀ (c : Word) (b : Byte), crcUpd c b = crcUpd (c ^^^ b.setWidth 16) 0x00) ∧
  (∀ u v : List Byte, crc16 (u ++ v) = v.foldl crcUpd (crc16 u))

/-- R107 (marked derived there): the CRC over a sequence and its own CRC, low byte first, is zero. -/
def Obligations.ResidueIsZero : Prop :=
  ∀ u : List Byte, crc16 (u ++ [(crc16 u).extractLsb' 0 8, (crc16 u).extractLsb' 8 8]) = 0x0000

/-! ### CRCINIT, CRCUPD, RDTBL -/

/-- R109. -/
def Obligations.CrcinitSetsTheAccumulator : Prop :=
  (∀ s, exec .crcinit s = .next { s with dcrc := 0xFFFF }) ∧
  decode 0x2000 = .ok .crcinit ∧ (∀ cw : Word, 0x2001 ≤ cw → cw ≤ 0x2FFF → ∃ w, decode cw = .error w)

/-- R110: the update in the table form, its corner cases and its example. -/
def Obligations.CrcupdUpdatesTheAccumulator : Prop :=
  (∀ (b : Byte) (s : State), exec (.crcupd b) s =
    .next { s with dcrc := (s.dcrc >>> 8) ^^^ tableEntry ((s.dcrc ^^^ b.setWidth 16).extractLsb' 0 8) }) ∧
  (∀ b : Byte, decode (0x3000 + b.setWidth 16) = .ok (.crcupd b)) ∧
  (∀ cw : Word, opField cw = 0x3 → cw.extractLsb' 8 4 ≠ 0 → ∃ w, decode cw = .error w) ∧
  crcUpd 0xFFFF 0x00 = 0x40BF ∧ (∀ b, ∃ c, crcUpd c b ≠ c) ∧ crcUpd 0x0000 0x00 = 0x0000 ∧
  crcUpd 0x0000 0x01 = 0xC0C1 ∧ crcUpd 0xFFFF 0x01 = 0x807E

/-- From R112: RDTBL reports the table entry and changes no state; its example. The entries 0x01, 0x02 and 0xFF are spot
values of the table of R104 (marked derived there). -/
def Obligations.RdtblReportsTheEntry : Prop :=
  (∀ (i : Byte) (s : State), exec (.rdtbl i) s = .next { s with events := s.events ++ [0x3#4 ++ tableEntry i] }) ∧
  (∀ i : Byte, decode (0x6000 + i.setWidth 16) = .ok (.rdtbl i)) ∧
  (∀ cw : Word, opField cw = 0x6 → cw.extractLsb' 8 4 ≠ 0 → ∃ w, decode cw = .error w) ∧
  tableEntry 0x00 = 0x0000 ∧ tableEntry 0x01 = 0xC0C1 ∧ tableEntry 0x02 = 0xC181 ∧ tableEntry 0x80 = 0xA001 ∧
  tableEntry 0xFF = 0x4040

/-- R108, R111 (derived there): after CRCINIT, any commands without another CRCINIT, and RDREG DCRC, the last event
reports the CRC-16 of the bytes of the CRCUPD commands among them, whatever else they do and wherever the block started. -/
def Obligations.DirectCrcOfACommandSequence : Prop :=
  ∀ (s : State) (cws : List Word) (rest : List Input),
    s.inputs = (0x2000 :: cws ++ [0x4002]).map .command ++ rest → 0x2000 ∉ cws →
    ∃ t, Sys2Proof.core.run (cws.length + 2) s = .next t ∧ t.inputs = rest ∧
      t.events.getLast? =
        some (0x3#4 ++ crc16 (cws.filterMap fun cw => if cw.extractLsb' 8 8 = 0x30#8 then some (imm8 cw) else none))

/-! ### The CHAR commands -/

/-- From R120 and R121 (marked derived there): the 22 hex digits and their values. That any other character has no value, where
R121 defines none, is the model's reading (log entry 8, DEDUCED). -/
def Obligations.HexDigitsHaveTheirValues : Prop :=
  ∀ c : Byte,
    (0x30 ≤ c → c ≤ 0x39 → hexVal c = some ((c - 0x30).setWidth 4)) ∧
    (0x41 ≤ c → c ≤ 0x46 → hexVal c = some ((c - 0x37).setWidth 4)) ∧
    (0x61 ≤ c → c ≤ 0x66 → hexVal c = some ((c - 0x57).setWidth 4)) ∧
    (isHex c = true ↔ (0x30 ≤ c ∧ c ≤ 0x39) ∨ (0x41 ≤ c ∧ c ≤ 0x46) ∨ (0x61 ≤ c ∧ c ≤ 0x66)) ∧
    ((hexVal c).isSome ↔ isHex c = true)

/-- R124: the delay line, FCRC and the byte counter of one push; and after any pushes from the empty frame path FCRC is the
CRC of all bytes but the last two, which the delay line holds. Every completed pair is pushed, a failing one as 0x00. -/
def Obligations.PushByteDelaysTheCrc : Prop :=
  (∀ (b : Byte) (f : FramePath),
    let n := if f.bcnt = 0xFFFF then 0xFFFF else f.bcnt + 1
    let v := f.fbovf || f.bcnt == 0xFFFF
    (f.dln = 2 → pushByte b f = { f with fcrc := crcUpd f.fcrc f.pen, pen := f.ult, ult := b, bcnt := n, fbovf := v }) ∧
    (f.dln = 1 → pushByte b f = { f with pen := f.ult, ult := b, dln := 2, bcnt := n, fbovf := v }) ∧
    (f.dln = 0 → pushByte b f = { f with ult := b, dln := 1, bcnt := n, fbovf := v })) ∧
  (∀ bs : List Byte,
    let g := bs.foldl (fun f b => pushByte b f) FramePath.empty
    g.fcrc = crc16 (bs.take (bs.length - 2)) ∧ g.dln.toNat = min bs.length 2 ∧
    (bs.length = 1 → bs = [g.ult]) ∧ (2 ≤ bs.length → bs.drop (bs.length - 2) = [g.pen, g.ult])) ∧
  (∀ (c : Byte) (f : FramePath), f.dln ≠ 3 → (completePair c f).ult = pairByte c f ∧
    (f.hbad = true ∨ isHex c = false → pairByte c f = 0x00))

/-- R127: a hex digit is held when it is the first of a pair; as the second it completes a byte, or a failing pair when the
held character was none. Nothing else changes; R124 says what the push does. -/
def Obligations.CharHexHoldsOrCompletes : Prop :=
  ∀ (s : State) (c : Byte), (Instr.charHex c).wf = true → ∃ v, hexVal c = some v ∧
    (s.frame.ph = false →
      exec (.charHex c) s = .next { s with frame := { s.frame with ph := true, hn := v, hbad := false } }) ∧
    (s.frame.ph = true → s.frame.hbad = false →
      exec (.charHex c) s = .next { s with
        frame := { pushByte (s.frame.hn ++ v) s.frame with ph := false, hn := 0, hbad := false }
        events := s.events ++ [0x1#4 ++ 0#8 ++ s.frame.hn ++ v] }) ∧
    (s.frame.ph = true → s.frame.hbad = true →
      exec (.charHex c) s = .next { s with
        frame := { pushByte 0x00 { s.frame with
            ecnt := if s.frame.ecnt = 0xFFFF then 0xFFFF else s.frame.ecnt + 1
            feovf := s.frame.feovf || s.frame.ecnt == 0xFFFF } with ph := false, hn := 0, hbad := false }
        events := s.events ++ [0x10000] })

/-- R128: a data character that is no hex digit is held as bad, or makes its pair fail: byte 0x00, one count. -/
def Obligations.CharBadHoldsOrFailsThePair : Prop :=
  ∀ (s : State) (c : Byte), (Instr.charBad c).wf = true →
    (s.frame.ph = false →
      exec (.charBad c) s = .next { s with frame := { s.frame with ph := true, hn := 0, hbad := true } }) ∧
    (s.frame.ph = true →
      exec (.charBad c) s = .next { s with
        frame := { pushByte 0x00 { s.frame with
            ecnt := if s.frame.ecnt = 0xFFFF then 0xFFFF else s.frame.ecnt + 1
            feovf := s.frame.feovf || s.frame.ecnt == 0xFFFF } with ph := false, hn := 0, hbad := false }
        events := s.events ++ [0x10000] })

/-- R129: a carriage return is dropped, also inside a pair. -/
def Obligations.CharCrIsDropped : Prop :=
  decode 0x100D = .ok .charCr ∧ ∀ s, exec .charCr s = .next s

/-- R130: the pseudocode of the terminator, all right-hand sides from the state before. -/
def Obligations.CharLfLatchesReportsAndClears : Prop :=
  decode 0x100A = .ok .charLf ∧
  ∀ s : State,
    let f := s.frame
    let e := if f.ph then (if f.ecnt = 0xFFFF then 0xFFFF else f.ecnt + 1) else f.ecnt
    let eovf := f.feovf || (f.ph && f.ecnt == 0xFFFF)
    let chk := f.dln == 2
    let crcr := if chk = false then 0x0000 else if s.swap = false then f.ult ++ f.pen else f.pen ++ f.ult
    let mtch := chk && f.fcrc == crcr
    let acc := chk && (mtch || s.sev == false)
    let flags : BitVec 8 := 0#1 ++ BitVec.ofBool eovf ++ BitVec.ofBool f.fbovf ++ BitVec.ofBool (e != 0) ++
      BitVec.ofBool f.ph ++ BitVec.ofBool acc ++ BitVec.ofBool mtch ++ BitVec.ofBool chk
    exec .charLf s = .next { s with
      results := { rFlags := flags, rCrcc := f.fcrc, rCrcr := crcr, rBcnt := f.bcnt, rEcnt := e }
      frame := { ph := false, hn := 0, hbad := false, fcrc := 0xFFFF, pen := 0, ult := 0, dln := 0, bcnt := 0,
                 fbovf := false, ecnt := 0, feovf := false }
      events := s.events ++ [0x2#4 ++ 0#8 ++ flags] }

/-- R31: where each flag stands in R_FLAGS after the terminator, bit by bit. -/
def Obligations.FlagBitsStandWhereTheSpecPutsThem : Prop :=
  ∀ s t : State, exec .charLf s = .next t →
    t.results.rFlags.getLsbD 0 = (s.frame.dln == 2) ∧
    (t.results.rFlags.getLsbD 1 = true ↔ s.frame.dln = 2 ∧ t.results.rCrcc = t.results.rCrcr) ∧
    (t.results.rFlags.getLsbD 2 = true ↔
      s.frame.dln = 2 ∧ (t.results.rFlags.getLsbD 1 = true ∨ s.sev = false)) ∧
    t.results.rFlags.getLsbD 3 = s.frame.ph ∧
    t.results.rFlags.getLsbD 4 = (t.results.rEcnt != 0) ∧
    t.results.rFlags.getLsbD 5 = s.frame.fbovf ∧
    t.results.rFlags.getLsbD 6 = (s.frame.feovf || (s.frame.ph && s.frame.ecnt == 0xFFFF)) ∧
    t.results.rFlags.getLsbD 7 = false

/-- R139: the two transition tables of the frame path; no command other than CHAR moves it. -/
def Obligations.FramePathMovesAsTheTablesSay : Prop :=
  (∀ (s t : State) (i : Instr) (c : Byte), i = .charHex c ∨ i = .charBad c → i.wf = true → exec i s = .next t →
    (s.frame.ph = false → t.frame.ph = true ∧ t.events = s.events ∧ t.frame.dln = s.frame.dln ∧
      t.frame.fcrc = s.frame.fcrc) ∧
    (s.frame.ph = true → t.frame.ph = false ∧ (∃ p, t.events = s.events ++ [eventWord .byte p]) ∧
      (s.frame.dln = 0 → t.frame.dln = 1 ∧ t.frame.fcrc = s.frame.fcrc) ∧
      (s.frame.dln = 1 → t.frame.dln = 2 ∧ t.frame.fcrc = s.frame.fcrc) ∧
      (s.frame.dln = 2 → t.frame.dln = 2 ∧ t.frame.fcrc = crcUpd s.frame.fcrc s.frame.pen))) ∧
  (∀ s t : State, exec .charCr s = .next t → t = s) ∧
  (∀ s t : State, exec .charLf s = .next t → t.frame = FramePath.empty ∧
    ∃ p : Word, t.events = s.events ++ [eventWord .fend p] ∧ p.getLsbD 3 = s.frame.ph) ∧
  (∀ (s : State) (cw : Word), opField cw ≠ 0x1 → ∃ t, runWord cw s = .next t ∧ t.frame = s.frame)

/-! ### NOP, RDREG, WRCTL -/

/-- R150: NOP changes nothing; the words next to it are illegal. -/
def Obligations.NopChangesNothing : Prop :=
  (∀ s, exec .nop s = .next s) ∧ decode 0x0000 = .ok .nop ∧
  (∀ cw : Word, 0x0001 ≤ cw → cw ≤ 0x0FFF → ∃ w, decode cw = .error w)

/-- R151, R152: RDREG reports the register's value and changes no state. -/
def Obligations.RdregReportsTheRegister : Prop :=
  (∀ (r : Reg) (s : State), exec (.rdreg r) s = .next { s with events := s.events ++ [0x3#4 ++ (match r with
    | .ctrl => 0#14 ++ BitVec.ofBool s.swap ++ BitVec.ofBool s.sev
    | .status => 0#14 ++ BitVec.ofBool (s.frame.ph || s.frame.bcnt != 0) ++ BitVec.ofBool s.ill
    | .dcrc => s.dcrc
    | .rFlags => 0#8 ++ s.results.rFlags
    | .rCrcc => s.results.rCrcc
    | .rCrcr => s.results.rCrcr
    | .rBcnt => s.results.rBcnt
    | .rEcnt => s.results.rEcnt : Word)] }) ∧
  ([0x4000#16, 0x4001, 0x4002, 0x4003, 0x4004, 0x4005, 0x4006, 0x4007].map decode =
    [Reg.ctrl, .status, .dcrc, .rFlags, .rCrcc, .rCrcr, .rBcnt, .rEcnt].map fun r => .ok (.rdreg r)) ∧
  (∀ cw : Word, 0x4008 ≤ cw → cw ≤ 0x4FFF → ∃ w, decode cw = .error w)

/-- R153: WRCTL always writes both fields, and nothing else; its four words. -/
def Obligations.WrctlWritesBothFields : Prop :=
  (∀ (swap sev : Bool) (s : State), exec (.wrctl swap sev) s = .next { s with swap := swap, sev := sev }) ∧
  decode 0x5000 = .ok (.wrctl false false) ∧ decode 0x5001 = .ok (.wrctl false true) ∧
  decode 0x5002 = .ok (.wrctl true false) ∧ decode 0x5003 = .ok (.wrctl true true) ∧
  (∀ cw : Word, 0x5004 ≤ cw → cw ≤ 0x5FFF → ∃ w, decode cw = .error w)

/-! ### Frames and whole-machine rules -/

/-- R156 (marked derived there), the frame of every command: what it may change when it gives a next state; everything it
does not name is unchanged. The inputs still to come are no command's. -/
def Obligations.EveryCommandHasItsFrame : Prop :=
  ∀ (i : Instr) (s t : State), i.wf = true → exec i s = .next t → t.inputs = s.inputs ∧
    match i with
    | .nop | .charCr => t = s
    | .charHex _ | .charBad _ =>
      t.dcrc = s.dcrc ∧ t.sev = s.sev ∧ t.swap = s.swap ∧ t.ill = s.ill ∧ t.results = s.results ∧
      (s.frame.ph = false → t.events = s.events ∧
        t.frame = { s.frame with ph := t.frame.ph, hn := t.frame.hn, hbad := t.frame.hbad }) ∧
      (s.frame.ph = true → (∃ b : Byte, t.events = s.events ++ [0x1#4 ++ 0#8 ++ b]) ∧
        (s.frame.hbad = false → (∃ c, i = .charHex c) →
          t.frame.ecnt = s.frame.ecnt ∧ t.frame.feovf = s.frame.feovf))
    | .charLf =>
      t.dcrc = s.dcrc ∧ t.sev = s.sev ∧ t.swap = s.swap ∧ t.ill = s.ill ∧
      ∃ p : Word, t.events = s.events ++ [0x2#4 ++ p]
    | .crcinit | .crcupd _ =>
      t.frame = s.frame ∧ t.sev = s.sev ∧ t.swap = s.swap ∧ t.ill = s.ill ∧ t.results = s.results ∧ t.events = s.events
    | .rdreg _ | .rdtbl _ =>
      t.frame = s.frame ∧ t.dcrc = s.dcrc ∧ t.sev = s.sev ∧ t.swap = s.swap ∧ t.ill = s.ill ∧ t.results = s.results ∧
      ∃ p : Word, t.events = s.events ++ [0x3#4 ++ p]
    | .wrctl _ _ =>
      t.frame = s.frame ∧ t.dcrc = s.dcrc ∧ t.ill = s.ill ∧ t.results = s.results ∧ t.events = s.events

/-- R43: only the terminator writes the result registers, and it writes all five for the frame it ends. -/
def Obligations.OnlyTheTerminatorWritesResults : Prop :=
  ∀ (s t : State) (cw : Word), runWord cw s = .next t →
    (cw ≠ 0x100A → t.results = s.results) ∧
    (cw = 0x100A → t.results.rCrcc = s.frame.fcrc ∧ t.results.rBcnt = s.frame.bcnt ∧
      t.results.rCrcr = carriedCrc s.swap s.frame ∧ t.results.rEcnt = finalErrors s.frame ∧
      t.results.rFlags = frameFlags s.sev s.swap s.frame)

/-- R29, R35, R32: which words can change DCRC, CTRL and ILL; no other command touches them. -/
def Obligations.OnlyTheirCommandsWriteDcrcCtrlAndIll : Prop :=
  ∀ (s t : State) (cw : Word), runWord cw s = .next t →
    (opField cw ≠ 0x2 → opField cw ≠ 0x3 → t.dcrc = s.dcrc) ∧
    (opField cw ≠ 0x5 → t.sev = s.sev ∧ t.swap = s.swap) ∧
    (t.ill = true ↔ s.ill = true ∨ ∃ w, decode cw = .error w)

/-- R174: ILL stays 1 until reset, and a set ILL bit has no effect on any command but the read that shows it. -/
def Obligations.IllegalBitIsStickyAndInert : Prop :=
  (∀ (cw : Word) (s t : State), s.ill = true → runWord cw s = .next t → t.ill = true) ∧
  (∀ (i : Instr) (s t : State) (b : Bool), i ≠ .rdreg .status → exec i s = .next t →
    exec i { s with ill := b } = .next { t with ill := b })

/-- R199: CTRL is sampled by CHAR.LF when it executes and by nothing else (a read shows it); a WRCTL inside a frame governs
that frame, and one after the terminator does not revise the latched results. -/
def Obligations.CtrlIsSampledAtTheTerminator : Prop :=
  (∀ (i : Instr) (s t : State) (swap sev : Bool), i ≠ .charLf → i ≠ .rdreg .ctrl → (∀ a b, i ≠ .wrctl a b) →
    exec i s = .next t → exec i { s with swap := swap, sev := sev } = .next { t with swap := swap, sev := sev }) ∧
  (∀ (s u t : State) (swap sev : Bool), exec (.wrctl swap sev) s = .next u → exec .charLf u = .next t →
    t.results = frameResults sev swap s.frame) ∧
  (∀ (s u t : State) (swap sev : Bool), exec .charLf s = .next u → exec (.wrctl swap sev) u = .next t →
    t.results = u.results)

/-- R62: reads change no state; repeating a command changes nothing more, unless it is a CHAR with a data character or the
terminator, or CRCUPD, whose repetition can change the outcome. -/
def Obligations.ReadsAndSettingsAreIdempotent : Prop :=
  (∀ (i : Instr) (s t : State), (∃ r, i = .rdreg r) ∨ (∃ k, i = .rdtbl k) → exec i s = .next t →
    t = { s with events := t.events }) ∧
  (∀ (i : Instr) (s t u : State), i ≠ .charLf → (∀ c, i ≠ .charHex c) → (∀ c, i ≠ .charBad c) → (∀ b, i ≠ .crcupd b) →
    exec i s = .next t → exec i t = .next u → u = { t with events := u.events }) ∧
  (∀ (i : Instr), i.wf = true → i = .charLf ∨ (∃ c, i = .charHex c) ∨ (∃ c, i = .charBad c) ∨ (∃ b, i = .crcupd b) →
    ∃ s t u, exec i s = .next t ∧ exec i t = .next u ∧ u ≠ { t with events := u.events })

/-- R74: the event of a command: its kind, its whole payload, and the commands that produce it. `pairByte` is the decoded
byte (R123), `readReg` the value read (R152). The events of a pair that reads 00 and of a failing pair are the same: only the
error count tells them apart. -/
def Obligations.EventsAreTheirCommands : Prop :=
  (∀ (s t : State) (cw : Word), runWord cw s = .next t →
    (∀ ev, t.events = s.events ++ [ev] →
      (evKind ev = 0x1 ∧ s.frame.ph = true ∧ ∃ c, (decode cw = .ok (.charHex c) ∨ decode cw = .ok (.charBad c)) ∧
        evPay ev = 0#8 ++ pairByte c s.frame) ∨
      (evKind ev = 0x2 ∧ evPay ev = 0#9 ++ t.results.rFlags.extractLsb' 0 7 ∧ decode cw = .ok .charLf) ∨
      (evKind ev = 0x3 ∧ ((∃ r, decode cw = .ok (.rdreg r) ∧ evPay ev = readReg r s) ∨
        ∃ k, decode cw = .ok (.rdtbl k) ∧ evPay ev = tableEntry k)) ∨
      (evKind ev = 0xF ∧ evPay ev = cw ∧ ∃ w, decode cw = .error w)) ∧
    (t.events = s.events ↔
      decode cw = .ok .nop ∨ decode cw = .ok .charCr ∨ decode cw = .ok .crcinit ∨ (∃ b, decode cw = .ok (.crcupd b)) ∨
      (∃ a b, decode cw = .ok (.wrctl a b)) ∨
      (s.frame.ph = false ∧ ((∃ c, decode cw = .ok (.charHex c)) ∨ ∃ c, decode cw = .ok (.charBad c))))) ∧
  (∃ s t u : State, exec (.charHex 0x30) s = .next t ∧ exec (.charBad 0x5A) s = .next u ∧
    t.events = s.events ++ [0x10000] ∧ t.frame.ecnt ≠ u.frame.ecnt ∧
    u = { t with frame := { t.frame with ecnt := u.frame.ecnt } })

/-! ### Invariants -/

/-- R25 (marked derived there) holds at reset, and so do the result registers' relations. -/
def Obligations.ResetMeetsTheFrameInvariant : Prop :=
  FrameInv State.reset.frame ∧ ResultsInv State.reset.results

/-- R25 (marked derived there): every step keeps the invariants of the frame path. -/
def Obligations.StepKeepsTheFrameInvariant : Prop :=
  ∀ s t : State, FrameInv s.frame → step s = .next t → FrameInv t.frame

/-- R178, R171 (R178 marked derived there): every step keeps the relations between the result flags and registers. -/
def Obligations.StepKeepsTheResultsInvariant : Prop :=
  ∀ s t : State, FrameInv s.frame → ResultsInv s.results → step s = .next t → ResultsInv t.results

/-- R73, R74: kinds 0x0 and 0x4 to 0xE are never produced, and payloads are zero-filled. -/
def Obligations.StepKeepsTheEventFormat : Prop :=
  ∀ s t : State, (∀ ev ∈ s.events, EventFormat ev) → step s = .next t → ∀ ev ∈ t.events, EventFormat ev

/-- R23 to R27, R125: the frame path is at every moment the one its text leads to (`frameOf`), and every command moves the
text as R138 says: a data character is appended, the terminator starts an empty text, anything else leaves it. -/
def Obligations.StepKeepsTheFramePathOfItsText : Prop :=
  ∀ (s : State) (text : List Byte), s.frame = frameOf text →
    ∃ t, step s = .next t ∧
      t.frame = frameOf (match s.inputs.head? with
        | none => text
        | some .reset => []
        | some (.command cw) =>
          match decode cw with
          | .ok .charLf => []
          | .ok (.charHex c) => text ++ [c]
          | .ok (.charBad c) => text ++ [c]
          | _ => text)

/-- R25 (f), (g), R26, R27, R125: what the counters of a text's frame path say: exact while no overflow is recorded. -/
def Obligations.CountersAreExactUntilTheyOverflow : Prop :=
  ∀ text : List Byte,
    FrameInv (frameOf text) ∧
    (decodedBytes text).length = text.length / 2 ∧
    ((frameOf text).ph = true ↔ text.length % 2 = 1) ∧
    (frameOf text).bcnt.toNat = min (text.length / 2) 0xFFFF ∧
    ((frameOf text).fbovf = false ↔ text.length / 2 ≤ 0xFFFF) ∧
    ((frameOf text).feovf = false → (frameOf text).ecnt.toNat = failingPairs text) ∧
    ((frameOf text).feovf = true → 0xFFFF < failingPairs text)

/-- R36: BUSY is 1 exactly when at least one data character has been accepted in this frame. -/
def Obligations.BusyMeansAFrameIsInProgress : Prop :=
  ∀ (s t : State) (text : List Byte), s.frame = frameOf text → exec (.rdreg .status) s = .next t →
    ∃ v : Word, t.events = s.events ++ [eventWord .rval v] ∧ (v.getLsbD 1 = true ↔ text ≠ []) ∧ v.getLsbD 0 = s.ill ∧
      v.extractLsb' 2 14 = 0

/-- R136 (marked derived there): the text length of the ended frame from its byte count and ODD, exact while BOVF is 0. -/
def Obligations.TextLengthFromTheResults : Prop :=
  ∀ (s t : State) (text : List Byte), s.frame = frameOf text → exec .charLf s = .next t →
    t.results.rFlags.getLsbD 5 = false →
    text.length = 2 * t.results.rBcnt.toNat + (t.results.rFlags.getLsbD 3).toNat

/-- R138 (a) to (d) (marked derived there): a whole frame. From an empty frame path, the bytes of a stream without a line
feed and then the terminator produce one BYTE event for each pair of its text and one FEND, and leave in the result
registers the CRC of all decoded bytes but the last two, the CRC carried in these two, and the two counts. -/
def Obligations.WholeFrameMeetsItsDescription : Prop :=
  ∀ (s : State) (stream : List Byte) (rest : List Input),
    s.frame = FramePath.empty → Config.terminator ∉ stream →
    s.inputs = feed stream ++ .command 0x100A :: rest →
    let text := frameText stream
    let b := decodedBytes text
    let n := b.length
    ∃ t, Sys2Proof.core.run (stream.length + 1) s = .next t ∧
      t.events = s.events ++ b.map (fun x => 0x1#4 ++ 0#8 ++ x) ++ [0x2#4 ++ 0#8 ++ t.results.rFlags] ∧
      t.results.rEcnt = saturated (failingPairs text + text.length % 2) ∧
      n = text.length / 2 ∧
      t.results.rBcnt = saturated n ∧
      t.results.rFlags.getLsbD 3 = decide (text.length % 2 = 1) ∧
      t.results.rFlags.getLsbD 0 = decide (2 ≤ n) ∧
      t.results.rFlags.getLsbD 4 = (t.results.rEcnt != 0) ∧
      t.results.rFlags.getLsbD 5 = decide (0xFFFF < n) ∧
      t.results.rFlags.getLsbD 6 = decide (0xFFFF < failingPairs text + text.length % 2) ∧
      (t.results.rFlags.getLsbD 1 = true ↔ 2 ≤ n ∧ t.results.rCrcc = t.results.rCrcr) ∧
      (t.results.rFlags.getLsbD 2 = true ↔ 2 ≤ n ∧ (t.results.rCrcc = t.results.rCrcr ∨ s.sev = false)) ∧
      (2 ≤ n → t.results.rCrcc = crc16 (b.take (n - 2)) ∧
        ∃ x y, b.drop (n - 2) = [x, y] ∧ t.results.rCrcr = if s.swap then x ++ y else y ++ x) ∧
      (n < 2 → t.results.rCrcc = 0xFFFF ∧ t.results.rCrcr = 0x0000) ∧
      t.frame = FramePath.empty ∧ t.inputs = rest ∧
      t.dcrc = s.dcrc ∧ t.sev = s.sev ∧ t.swap = s.swap ∧ t.ill = s.ill

/-- R140 (marked derived there): the same frame text from any two states with an empty frame path and the same CTRL yields
the same events and the same result registers. -/
def Obligations.SameTextGivesTheSameReport : Prop :=
  ∀ (s u : State) (stream : List Byte) (rest rest' : List Input),
    s.frame = FramePath.empty → u.frame = FramePath.empty → s.sev = u.sev → s.swap = u.swap →
    Config.terminator ∉ stream →
    s.inputs = feed stream ++ .command 0x100A :: rest → u.inputs = feed stream ++ .command 0x100A :: rest' →
    ∃ s' u' new, Sys2Proof.core.run (stream.length + 1) s = .next s' ∧ Sys2Proof.core.run (stream.length + 1) u = .next u' ∧
      s'.events = s.events ++ new ∧ u'.events = u.events ++ new ∧ s'.results = u'.results
end

