-- ==== Sys2Proof/Laws/Assembler.lean ====
section
/-! SUPPORT. What a string of the notation spells, one character or escape at a time (R87), so that no proof unfolds
`parseString`. -/

namespace Sys2Proof.Laws

open Sys2Proof.Machine Sys2Proof.Safety

theorem digitVal_of_isDigitOf (h : Char) (v : Nibble) (hh : IsDigitOf h v) : digitVal 16 h = some v.toNat := by
  rcases hh with rfl | rfl <;> decide +revert

theorem parseString_quote (rest : List Char) (h : lineEnds rest = true) : parseString ('"' :: rest) = some [] := by
  simp [parseString, h]

theorem parseString_cr (rest : List Char) :
    parseString ('\\' :: 'r' :: rest) = (parseString rest).map (0x0D :: ·) := rfl

theorem parseString_lf (rest : List Char) :
    parseString ('\\' :: 'n' :: rest) = (parseString rest).map (0x0A :: ·) := rfl

/-- The two digits of a byte have its value. -/
theorem digitsVal_of_byte (h l : Char) (b : Byte) (hh : IsDigitOf h (b.extractLsb' 4 4))
    (hl : IsDigitOf l (b.extractLsb' 0 4)) : digitsVal 16 0 [h, l] = some b.toNat := by
  have value := BitVec.toNat_lt_twoPow_of_le (n := 8) (x := b) (by omega)
  simp only [digitsVal.eq_def, digitVal_of_isDigitOf h _ hh, digitVal_of_isDigitOf l _ hl, Option.bind_some,
    BitVec.extractLsb'_toNat, Nat.shiftRight_eq_div_pow, Option.some.injEq]
  omega

/-- `\xHH` spells the byte of its two digits. -/
theorem parseString_hex (h l : Char) (b : Byte) (rest : List Char) (hh : IsDigitOf h (b.extractLsb' 4 4))
    (hl : IsDigitOf l (b.extractLsb' 0 4)) :
    parseString ('\\' :: 'x' :: h :: l :: rest) = (parseString rest).map (b :: ·) := by
  rw [parseString, digitsVal_of_byte h l b hh hl]
  cases parseString rest <;> simp

theorem parseString_plain (c : Char) (rest : List Char) (hq : c ≠ '"') (hb : c ≠ '\\') (hc : c.toNat < 128) :
    parseString (c :: rest) = (parseString rest).map (BitVec.ofNat 8 c.toNat :: ·) := by
  rw [parseString.eq_def]
  split <;> simp_all [asciiByte]
  cases parseString _ <;> rfl

/-- One piece of a string spells its byte and leaves the rest. -/
theorem parseString_piece (cs : List Char) (b : Byte) (rest : List Char) (h : CharactersSpell cs b) :
    parseString (cs ++ rest) = (parseString rest).map (b :: ·) := by
  rcases h with (⟨rfl, rfl⟩ | ⟨rfl, rfl⟩ | rfl) | ⟨h, l, rfl, hh, hl⟩ | ⟨c, rfl, hq, hb, hc, rfl⟩
  · exact parseString_cr rest
  · exact parseString_lf rest
  · exact parseString_hex _ _ b rest (.inl rfl) (.inl rfl)
  · exact parseString_hex h l b rest hh hl
  · exact parseString_plain c rest hq hb hc

/-- A whole string, up to its closing quote and what follows it, spells the bytes of its pieces in order. -/
theorem parseString_pieces (pieces : List (List Char × Byte)) (rest : List Char) (hrest : lineEnds rest = true)
    (h : ∀ p ∈ pieces, CharactersSpell p.1 p.2) :
    parseString (pieces.flatMap (·.1) ++ '"' :: rest) = some (pieces.map (·.2)) := by
  induction pieces with
  | nil => simpa using parseString_quote rest hrest
  | cons p ps ih =>
    rw [List.flatMap_cons, List.append_assoc, parseString_piece _ _ _ (h p (by simp)),
      ih fun q hq => h q (by simp [hq])]
    rfl

end Sys2Proof.Laws
end

