-- ==== Sys2Proof/Laws/Crc.lean ====
section
/-! SUPPORT. The iteration of the CRC is linear over exclusive-or (spec/40_crc16.md R102). -/

namespace Sys2Proof.Laws

open Sys2Proof.Machine

theorem crcBit_xor (x y : Word) : crcBit (x ^^^ y) = crcBit x ^^^ crcBit y := by
  have h (b c : Bool) : (if xor b c then Config.crcPoly else 0) =
      (if b then Config.crcPoly else 0) ^^^ (if c then Config.crcPoly else 0) := by
    revert b c; decide
  simp only [crcBit, BitVec.getLsbD_xor, h, BitVec.ushiftRight_xor_distrib]
  ac_rfl

theorem crcBits_xor (n : Nat) (x y : Word) : crcBits n (x ^^^ y) = crcBits n x ^^^ crcBits n y := by
  induction n generalizing x y with
  | zero => rfl
  | succ n ih => rw [crcBits, crcBit_xor, ih]; rfl

@[simp] theorem crc16_nil : crc16 [] = Config.crcStart := rfl

theorem crc16_snoc (u : List Byte) (b : Byte) : crc16 (u ++ [b]) = crcUpd (crc16 u) b := by
  simp [crc16]

end Sys2Proof.Laws
end

