-- ==== Sys2Proof/Laws/Decode.lean ====
section
/-! SUPPORT. The table decoder and a decoder by the high byte agree, so that a proof about decoding splits on the high byte
instead of unfolding nineteen rows. -/

open Sys2Proof.Machine

namespace Sys2Proof.Laws

theorem word_eq_iff_halves (x y : Word) :
    x = y ↔ x.extractLsb' 8 8 = y.extractLsb' 8 8 ∧ x.extractLsb' 0 8 = y.extractLsb' 0 8 := by
  refine ⟨fun h => by simp [h], fun ⟨hh, hl⟩ => BitVec.eq_of_getLsbD_eq fun i hi => ?_⟩
  by_cases h : i < 8
  · have := congrArg (·.getLsbD i) hl
    simpa [BitVec.getLsbD_extractLsb', h] using this
  · have := congrArg (·.getLsbD (i - 8)) hh
    simpa [BitVec.getLsbD_extractLsb', show i - 8 < 8 by omega, show 8 + (i - 8) = i by omega] using this

/-- A row hits a word given by its two halves. -/
def hitsHalves (r : Row) (hi lo : Byte) : Bool :=
  (hi &&& r.mask.extractLsb' 8 8) == r.pattern.extractLsb' 8 8 &&
    (lo &&& r.mask.extractLsb' 0 8) == r.pattern.extractLsb' 0 8

theorem hits_eq_halves (r : Row) (cw : Word) :
    r.hits cw = hitsHalves r (cw.extractLsb' 8 8) (cw.extractLsb' 0 8) := by
  rw [Row.hits, hitsHalves, Bool.eq_iff_iff]
  simp [word_eq_iff_halves, BitVec.extractLsb'_and]

/-- The decoder by the high byte, proved equal to the table's below. -/
def decodeHalves (hi lo : Byte) : Except IllegalWord Instr :=
  if hi = 0x00#8 then if lo = 0#8 then .ok .nop else .error .reservedBits
  else if hi = 0x10#8 then .ok (charInstr lo)
  else if hi = 0x20#8 then if lo = 0#8 then .ok .crcinit else .error .reservedBits
  else if hi = 0x30#8 then .ok (.crcupd lo)
  else if hi = 0x40#8 then if lo < 8#8 then .ok (.rdreg (regOfIndex (lo.setWidth 3))) else .error .reservedBits
  else if hi = 0x50#8 then if lo < 4#8 then .ok (.wrctl (lo.getLsbD 1) (lo.getLsbD 0)) else .error .reservedBits
  else if hi = 0x60#8 then .ok (.rdtbl lo)
  else .error (if hi < 0x70#8 then .reservedBits else .unassignedOpcode)

/-- The operation of the row that hits a word given by its two halves. -/
def opHalves (hi lo : Byte) : Option Op := (opcodeTable.find? (hitsHalves · hi lo)).map (·.op)

theorem opHalves_other (hi lo : Byte)
    (h : hi ≠ 0x00#8 ∧ hi ≠ 0x10#8 ∧ hi ≠ 0x20#8 ∧ hi ≠ 0x30#8 ∧ hi ≠ 0x40#8 ∧ hi ≠ 0x50#8 ∧ hi ≠ 0x60#8) : opHalves hi lo = none := by
  obtain ⟨h0, h1, h2, h3, h4, h5, h6⟩ := h
  have key : ∀ r ∈ opcodeTable, r.mask.extractLsb' 8 8 = 0xFF#8 ∧
      r.pattern.extractLsb' 8 8 ∈ [0x00#8, 0x10#8, 0x20#8, 0x30#8, 0x40#8, 0x50#8, 0x60#8] := by decide
  simp only [opHalves, Option.map_eq_none_iff, List.find?_eq_none]
  intro r hr hh
  obtain ⟨hm, hp⟩ := key r hr
  simp only [hitsHalves, hm, Bool.and_eq_true, beq_iff_eq] at hh
  have : hi &&& 0xFF#8 = hi := BitVec.and_allOnes
  rw [this] at hh
  simp only [← hh.1, List.mem_cons, List.not_mem_nil, or_false] at hp
  rcases hp with h | h | h | h | h | h | h <;> contradiction

theorem opHalves_char (lo : Byte) : opHalves 0x10#8 lo = some (match charClass lo with
    | .lf => .charLf | .cr => .charCr | .hex => .charHex | .bad => .charBad) := by
  revert lo; decide +kernel

theorem opHalves_zero (lo : Byte) : opHalves 0x00#8 lo = (if lo = 0#8 then some .nop else none) := by
  revert lo; decide +kernel
theorem opHalves_crcinit (lo : Byte) : opHalves 0x20#8 lo = (if lo = 0#8 then some .crcinit else none) := by
  revert lo; decide +kernel
theorem opHalves_crcupd (lo : Byte) : opHalves 0x30#8 lo = some .crcupd := by
  revert lo; decide +kernel
theorem opHalves_rdreg (lo : Byte) : opHalves 0x40#8 lo = (if lo < 8#8 then some .rdreg else none) := by
  revert lo; decide +kernel
theorem opHalves_wrctl (lo : Byte) : opHalves 0x50#8 lo = (if lo < 4#8 then some .wrctl else none) := by
  revert lo; decide +kernel
theorem opHalves_rdtbl (lo : Byte) : opHalves 0x60#8 lo = some .rdtbl := by
  revert lo; decide +kernel

theorem decode_eq_op (cw : Word) : decode cw =
    match opHalves (cw.extractLsb' 8 8) (cw.extractLsb' 0 8) with
    | some op => .ok (withOperands op cw)
    | none => .error (illegalReason cw) := by
  have : (opcodeTable.find? (hitsHalves · (cw.extractLsb' 8 8) (cw.extractLsb' 0 8))) = firstRow opcodeTable cw := by
    simp only [firstRow, hits_eq_halves]
  rw [decode, opHalves, this]
  cases firstRow opcodeTable cw <;> rfl

theorem illegalReason_halves (cw : Word) : illegalReason cw =
    if cw.extractLsb' 8 8 < 0x70#8 then .reservedBits else .unassignedOpcode := by
  have : opField cw < 7#4 ↔ cw.extractLsb' 8 8 < 0x70#8 := by
    simp [opField, BitVec.lt_def, BitVec.extractLsb'_toNat, Nat.shiftRight_eq_div_pow]
    omega
  simp [illegalReason, this]

theorem decode_eq_halves (cw : Word) : decode cw = decodeHalves (cw.extractLsb' 8 8) (cw.extractLsb' 0 8) := by
  have himm : imm8 cw = cw.extractLsb' 0 8 := rfl
  have hreg : cw.extractLsb' 0 3 = (cw.extractLsb' 0 8).setWidth 3 := by
    ext i hi; simp [show i < 8 by omega]
  have h1 : cw.getLsbD 1 = (cw.extractLsb' 0 8).getLsbD 1 := by simp
  have h0 : cw.getLsbD 0 = (cw.extractLsb' 0 8).getLsbD 0 := by simp
  rw [decode_eq_op, illegalReason_halves]
  simp only [withOperands, himm, hreg, h1, h0]
  generalize cw.extractLsb' 8 8 = hi
  generalize cw.extractLsb' 0 8 = lo
  by_cases c0 : hi = 0x00#8
  · subst c0; rw [opHalves_zero]; by_cases h : lo = 0#8 <;> simp [h, decodeHalves]
  by_cases c1 : hi = 0x10#8
  · subst c1; rw [opHalves_char]; simp only [decodeHalves, charInstr]; cases charClass lo <;> rfl
  by_cases c2 : hi = 0x20#8
  · subst c2; rw [opHalves_crcinit]; by_cases h : lo = 0#8 <;> simp [h, decodeHalves]
  by_cases c3 : hi = 0x30#8
  · subst c3; rw [opHalves_crcupd]; rfl
  by_cases c4 : hi = 0x40#8
  · subst c4; rw [opHalves_rdreg]; by_cases h : lo < 8#8 <;> simp [h, decodeHalves]
  by_cases c5 : hi = 0x50#8
  · subst c5; rw [opHalves_wrctl]; by_cases h : lo < 4#8 <;> simp [h, decodeHalves]
  by_cases c6 : hi = 0x60#8
  · subst c6; rw [opHalves_rdtbl]; rfl
  · rw [opHalves_other hi lo ⟨c0, c1, c2, c3, c4, c5, c6⟩]
    simp [decodeHalves, c0, c1, c2, c3, c4, c5, c6]

/-- The high half of an encoded command holds its opcode. -/
theorem commandWord_high (op : BitVec 4) (low : Byte) : (commandWord op low).extractLsb' 8 8 = op ++ 0#4 := by
  revert op low; decide +kernel

/-- The low half of an encoded command holds its operand. -/
theorem commandWord_low (op : BitVec 4) (low : Byte) : (commandWord op low).extractLsb' 0 8 = low := by
  revert op low; decide +kernel

end Sys2Proof.Laws
end

