-- ==== Sys2Proof/Laws/State.lean ====
section
/-! SUPPORT. One lemma for each field and each update of the state: what an operation writes and what it keeps. -/

namespace Sys2Proof.Laws

open Sys2Proof.Machine

variable (s : State) (f : FramePath) (k : EventKind) (pay cw : Word) (b c : Byte) (swap sev : Bool)

@[simp] theorem emit_frame : (emit k pay s).frame = s.frame := rfl
@[simp] theorem emit_dcrc : (emit k pay s).dcrc = s.dcrc := rfl
@[simp] theorem emit_sev : (emit k pay s).sev = s.sev := rfl
@[simp] theorem emit_swap : (emit k pay s).swap = s.swap := rfl
@[simp] theorem emit_ill : (emit k pay s).ill = s.ill := rfl
@[simp] theorem emit_results : (emit k pay s).results = s.results := rfl
@[simp] theorem emit_inputs : (emit k pay s).inputs = s.inputs := rfl
@[simp] theorem emit_events : (emit k pay s).events = s.events ++ [eventWord k pay] := rfl

@[simp] theorem raiseIllegal_frame : (raiseIllegal cw s).frame = s.frame := rfl
@[simp] theorem raiseIllegal_dcrc : (raiseIllegal cw s).dcrc = s.dcrc := rfl
@[simp] theorem raiseIllegal_sev : (raiseIllegal cw s).sev = s.sev := rfl
@[simp] theorem raiseIllegal_swap : (raiseIllegal cw s).swap = s.swap := rfl
@[simp] theorem raiseIllegal_ill : (raiseIllegal cw s).ill = true := rfl
@[simp] theorem raiseIllegal_results : (raiseIllegal cw s).results = s.results := rfl
@[simp] theorem raiseIllegal_inputs : (raiseIllegal cw s).inputs = s.inputs := rfl
@[simp] theorem raiseIllegal_events : (raiseIllegal cw s).events = s.events ++ [eventWord .ill cw] := rfl

@[simp] theorem writeCtrl_frame : (writeCtrl swap sev s).frame = s.frame := rfl
@[simp] theorem writeCtrl_dcrc : (writeCtrl swap sev s).dcrc = s.dcrc := rfl
@[simp] theorem writeCtrl_sev : (writeCtrl swap sev s).sev = sev := rfl
@[simp] theorem writeCtrl_swap : (writeCtrl swap sev s).swap = swap := rfl
@[simp] theorem writeCtrl_ill : (writeCtrl swap sev s).ill = s.ill := rfl
@[simp] theorem writeCtrl_results : (writeCtrl swap sev s).results = s.results := rfl
@[simp] theorem writeCtrl_inputs : (writeCtrl swap sev s).inputs = s.inputs := rfl
@[simp] theorem writeCtrl_events : (writeCtrl swap sev s).events = s.events := rfl

@[simp] theorem endFrame_frame : (endFrame s).frame = FramePath.empty := rfl
@[simp] theorem endFrame_dcrc : (endFrame s).dcrc = s.dcrc := rfl
@[simp] theorem endFrame_sev : (endFrame s).sev = s.sev := rfl
@[simp] theorem endFrame_swap : (endFrame s).swap = s.swap := rfl
@[simp] theorem endFrame_ill : (endFrame s).ill = s.ill := rfl
@[simp] theorem endFrame_results : (endFrame s).results = frameResults s.sev s.swap s.frame := rfl
@[simp] theorem endFrame_inputs : (endFrame s).inputs = s.inputs := rfl
@[simp] theorem endFrame_events : (endFrame s).events = s.events ++ [eventWord .fend ((frameFlags s.sev s.swap s.frame).setWidth 16)] := rfl

@[simp] theorem resetBlock_frame : (resetBlock s).frame = State.reset.frame := rfl
@[simp] theorem resetBlock_dcrc : (resetBlock s).dcrc = State.reset.dcrc := rfl
@[simp] theorem resetBlock_sev : (resetBlock s).sev = State.reset.sev := rfl
@[simp] theorem resetBlock_swap : (resetBlock s).swap = State.reset.swap := rfl
@[simp] theorem resetBlock_ill : (resetBlock s).ill = State.reset.ill := rfl
@[simp] theorem resetBlock_results : (resetBlock s).results = State.reset.results := rfl
@[simp] theorem resetBlock_inputs : (resetBlock s).inputs = s.inputs := rfl
@[simp] theorem resetBlock_events : (resetBlock s).events = s.events := rfl

@[simp] theorem countError_ph : (countError f).ph = f.ph := rfl
@[simp] theorem countError_hn : (countError f).hn = f.hn := rfl
@[simp] theorem countError_hbad : (countError f).hbad = f.hbad := rfl
@[simp] theorem countError_fcrc : (countError f).fcrc = f.fcrc := rfl
@[simp] theorem countError_pen : (countError f).pen = f.pen := rfl
@[simp] theorem countError_ult : (countError f).ult = f.ult := rfl
@[simp] theorem countError_dln : (countError f).dln = f.dln := rfl
@[simp] theorem countError_bcnt : (countError f).bcnt = f.bcnt := rfl
@[simp] theorem countError_fbovf : (countError f).fbovf = f.fbovf := rfl
@[simp] theorem countError_ecnt : (countError f).ecnt = satInc f.ecnt := rfl
@[simp] theorem countError_feovf : (countError f).feovf = (f.feovf || satFull f.ecnt) := rfl

@[simp] theorem countByte_ph : (countByte f).ph = f.ph := rfl
@[simp] theorem countByte_hn : (countByte f).hn = f.hn := rfl
@[simp] theorem countByte_hbad : (countByte f).hbad = f.hbad := rfl
@[simp] theorem countByte_fcrc : (countByte f).fcrc = f.fcrc := rfl
@[simp] theorem countByte_pen : (countByte f).pen = f.pen := rfl
@[simp] theorem countByte_ult : (countByte f).ult = f.ult := rfl
@[simp] theorem countByte_dln : (countByte f).dln = f.dln := rfl
@[simp] theorem countByte_bcnt : (countByte f).bcnt = satInc f.bcnt := rfl
@[simp] theorem countByte_fbovf : (countByte f).fbovf = (f.fbovf || satFull f.bcnt) := rfl
@[simp] theorem countByte_ecnt : (countByte f).ecnt = f.ecnt := rfl
@[simp] theorem countByte_feovf : (countByte f).feovf = f.feovf := rfl

@[simp] theorem shiftDelay_ph : (shiftDelay b f).ph = f.ph := by
  unfold shiftDelay; split_ifs <;> rfl
@[simp] theorem shiftDelay_hn : (shiftDelay b f).hn = f.hn := by
  unfold shiftDelay; split_ifs <;> rfl
@[simp] theorem shiftDelay_hbad : (shiftDelay b f).hbad = f.hbad := by
  unfold shiftDelay; split_ifs <;> rfl
@[simp] theorem shiftDelay_bcnt : (shiftDelay b f).bcnt = f.bcnt := by
  unfold shiftDelay; split_ifs <;> rfl
@[simp] theorem shiftDelay_fbovf : (shiftDelay b f).fbovf = f.fbovf := by
  unfold shiftDelay; split_ifs <;> rfl
@[simp] theorem shiftDelay_ecnt : (shiftDelay b f).ecnt = f.ecnt := by
  unfold shiftDelay; split_ifs <;> rfl
@[simp] theorem shiftDelay_feovf : (shiftDelay b f).feovf = f.feovf := by
  unfold shiftDelay; split_ifs <;> rfl

@[simp] theorem pushByte_ph : (pushByte b f).ph = f.ph := by simp [pushByte]
@[simp] theorem pushByte_hn : (pushByte b f).hn = f.hn := by simp [pushByte]
@[simp] theorem pushByte_hbad : (pushByte b f).hbad = f.hbad := by simp [pushByte]
@[simp] theorem pushByte_ecnt : (pushByte b f).ecnt = f.ecnt := by simp [pushByte]
@[simp] theorem pushByte_feovf : (pushByte b f).feovf = f.feovf := by simp [pushByte]
@[simp] theorem pushByte_bcnt : (pushByte b f).bcnt = satInc f.bcnt := by simp [pushByte]
@[simp] theorem pushByte_fbovf : (pushByte b f).fbovf = (f.fbovf || satFull f.bcnt) := by simp [pushByte]

@[simp] theorem hold_fcrc : (hold c f).fcrc = f.fcrc := by unfold hold; split <;> rfl
@[simp] theorem hold_pen : (hold c f).pen = f.pen := by unfold hold; split <;> rfl
@[simp] theorem hold_ult : (hold c f).ult = f.ult := by unfold hold; split <;> rfl
@[simp] theorem hold_dln : (hold c f).dln = f.dln := by unfold hold; split <;> rfl
@[simp] theorem hold_bcnt : (hold c f).bcnt = f.bcnt := by unfold hold; split <;> rfl
@[simp] theorem hold_fbovf : (hold c f).fbovf = f.fbovf := by unfold hold; split <;> rfl
@[simp] theorem hold_ecnt : (hold c f).ecnt = f.ecnt := by unfold hold; split <;> rfl
@[simp] theorem hold_feovf : (hold c f).feovf = f.feovf := by unfold hold; split <;> rfl
@[simp] theorem hold_ph : (hold c f).ph = true := by unfold hold; split <;> rfl
@[simp] theorem hold_hn : (hold c f).hn = (hexVal c).getD 0 := by unfold hold; split <;> simp_all
@[simp] theorem hold_hbad : (hold c f).hbad = (hexVal c).isNone := by unfold hold; split <;> simp_all

@[simp] theorem dataChar_dcrc : (dataChar c s).dcrc = s.dcrc := by unfold dataChar; split <;> rfl
@[simp] theorem dataChar_sev : (dataChar c s).sev = s.sev := by unfold dataChar; split <;> rfl
@[simp] theorem dataChar_swap : (dataChar c s).swap = s.swap := by unfold dataChar; split <;> rfl
@[simp] theorem dataChar_ill : (dataChar c s).ill = s.ill := by unfold dataChar; split <;> rfl
@[simp] theorem dataChar_results : (dataChar c s).results = s.results := by unfold dataChar; split <;> rfl
@[simp] theorem dataChar_inputs : (dataChar c s).inputs = s.inputs := by unfold dataChar; split <;> rfl
@[simp] theorem dataChar_frame : (dataChar c s).frame = if s.frame.ph then completePair c s.frame else hold c s.frame := by
  unfold dataChar; split <;> rfl
@[simp] theorem dataChar_events : (dataChar c s).events =
    if s.frame.ph then s.events ++ [eventWord .byte ((pairByte c s.frame).setWidth 16)] else s.events := by
  unfold dataChar; split <;> rfl

end Sys2Proof.Laws
end

