-- ==== Sys2Proof/Laws/Ops.lean ====
section
/-! SUPPORT. What each shared operation and each command can do, said once: the next state of every command as one function
(`effect`), the inversion of a step, the saturating counters and the flags byte bit by bit. -/

namespace Sys2Proof.Laws

open Sys2Proof.Machine

/-- The next state of every command. -/
def effect (i : Instr) (s : State) : State :=
  match i with
  | .nop | .charCr => s
  | .charLf => endFrame s
  | .charHex c | .charBad c => dataChar c s
  | .crcinit => { s with dcrc := Config.crcStart }
  | .crcupd b => { s with dcrc := crcUpd s.dcrc b }
  | .rdreg r => emit .rval (readReg r s) s
  | .wrctl swap sev => writeCtrl swap sev s
  | .rdtbl k => emit .rval (tableEntry k) s

theorem exec_eq_effect (i : Instr) (s : State) : exec i s = .next (effect i s) := by
  cases i <;> rfl

theorem exec_next_iff (i : Instr) (s t : State) : exec i s = .next t ↔ t = effect i s := by
  rw [exec_eq_effect]
  exact ⟨fun h => by cases h; rfl, fun h => h ▸ rfl⟩

theorem runWord_command (cw : Word) (i : Instr) (s : State) (h : decode cw = .ok i) :
    runWord cw s = .next (effect i s) := by
  simp [runWord, h, exec_eq_effect]

theorem runWord_illegal (cw : Word) (w : IllegalWord) (s : State) (h : decode cw = .error w) :
    runWord cw s = .next (raiseIllegal cw s) := by
  simp [runWord, h]

/-- What one step can do. -/
theorem step_inversion (s t : State) (h : step s = .next t) :
    (s.inputs = [] ∧ t = s) ∨
    (∃ cw rest i, s.inputs = .command cw :: rest ∧ decode cw = .ok i ∧ t = effect i { s with inputs := rest }) ∨
    (∃ cw rest w, s.inputs = .command cw :: rest ∧ decode cw = .error w ∧
      t = raiseIllegal cw { s with inputs := rest }) ∨
    (∃ rest, s.inputs = .reset :: rest ∧ t = resetBlock { s with inputs := rest }) := by
  unfold step at h
  split at h
  · next hi => cases h; exact .inl ⟨hi, rfl⟩
  · next cw rest hi =>
    rcases hd : decode cw with w | i
    · rw [runWord_illegal cw w _ hd] at h
      cases h; exact .inr (.inr (.inl ⟨cw, rest, w, hi, hd, rfl⟩))
    · rw [runWord_command cw i _ hd] at h
      cases h; exact .inr (.inl ⟨cw, rest, i, hi, hd, rfl⟩)
  · next rest hi => cases h; exact .inr (.inr (.inr ⟨rest, hi, rfl⟩))

/-- A run peels off one step. -/
theorem run_step (k : Nat) (s v : State) (h : step s = .next v) :
    Sys2Proof.core.run (k + 1) s = Sys2Proof.core.run k v := by
  have general (M : Host.Core) (a b : M.State) (h : M.step a = .next b) : M.run (k + 1) a = M.run k b := by
    simp [Host.Core.run, h]
  exact general Sys2Proof.core s v h

/-! ### Counters -/

theorem satInc_toNat (v : Word) : (satInc v).toNat = min (v.toNat + 1) 0xFFFF := by
  unfold satInc Config.counterMax
  split
  · next h =>
    have : v.toNat ≠ 65535 := fun e => h (BitVec.eq_of_toNat_eq (by simpa using e))
    rw [BitVec.toNat_add]
    have := v.isLt
    simp; omega
  · next h =>
    have : v = 0xFFFF#16 := by simpa using h
    subst this; rfl

theorem satFull_iff (v : Word) : satFull v = true ↔ v.toNat = 0xFFFF := by
  unfold satFull Config.counterMax
  rw [beq_iff_eq, ← BitVec.toNat_inj]
  rfl

theorem satInc_ne_zero (v : Word) : satInc v ≠ 0 := by
  intro h
  have := congrArg BitVec.toNat h
  rw [satInc_toNat] at this
  simp at this

/-! ### The flags byte -/

theorem packFlags_bits (eovf bovf hexerr odd accept matched chk : Bool) :
    let r := packFlags eovf bovf hexerr odd accept matched chk
    r.getLsbD 0 = chk ∧ r.getLsbD 1 = matched ∧ r.getLsbD 2 = accept ∧ r.getLsbD 3 = odd ∧ r.getLsbD 4 = hexerr ∧
      r.getLsbD 5 = bovf ∧ r.getLsbD 6 = eovf ∧ r.getLsbD 7 = false := by
  revert eovf bovf hexerr odd accept matched chk; decide

/-! ### Pairs -/

theorem isHex_eq_isSome (c : Byte) : isHex c = (hexVal c).isSome := by
  revert c; decide +kernel

theorem isHex_iff_class (c : Byte) : charClass c = .hex ↔ isHex c = true := by
  revert c; decide +kernel

end Sys2Proof.Laws
end

