-- ==== Sys2Proof/Laws/PerInstr.lean ====
section
/-! SUPPORT. The family EncodedOpcode: the top four bits of a command's word are the opcode that spec/30_encoding.md R80 gives
its mnemonic. One lemma for each constructor. -/

namespace Sys2Proof.Laws.EncodedOpcode

/-- "Opcode values by OP" (R80). -/
def opcode : Instr → BitVec 4
  | .nop => 0x0
  | .charLf | .charCr | .charHex _ | .charBad _ => 0x1
  | .crcinit => 0x2
  | .crcupd _ => 0x3
  | .rdreg _ => 0x4
  | .wrctl _ _ => 0x5
  | .rdtbl _ => 0x6

/-- The word of the command carries its opcode. -/
def Statement (i : Instr) : Prop := opField (encode i) = opcode i

theorem opField_commandWord (op : BitVec 4) (low : Byte) : opField (commandWord op low) = op := by
  revert op low; decide +kernel

theorem nop : Statement .nop := opField_commandWord _ _
theorem charLf : Statement .charLf := opField_commandWord _ _
theorem charCr : Statement .charCr := opField_commandWord _ _
theorem charHex (c : Byte) : Statement (.charHex c) := opField_commandWord _ _
theorem charBad (c : Byte) : Statement (.charBad c) := opField_commandWord _ _
theorem crcinit : Statement .crcinit := opField_commandWord _ _
theorem crcupd (b : Byte) : Statement (.crcupd b) := opField_commandWord _ _
theorem rdreg (r : Reg) : Statement (.rdreg r) := opField_commandWord _ _
theorem wrctl (swap sev : Bool) : Statement (.wrctl swap sev) := opField_commandWord _ _
theorem rdtbl (i : Byte) : Statement (.rdtbl i) := opField_commandWord _ _

end Sys2Proof.Laws.EncodedOpcode
end

