-- ==== Sys2Proof/Tests/Slice0.lean ====
section
/-! SUPPORT. Small tests, each about one word or one step, their expected values from spec/95_test_vectors.md and the worked
examples of the rules; and for every statement with hypotheses a witness that meets them. -/

namespace Sys2Proof.Tests

open Sys2Proof.Machine Sys2Proof.Safety

/-! ### WellFormed refuses a character of another class -/

theorem test_wf_refuses_hex_Z : (Instr.charHex 0x5A).wf = false := by decide
theorem test_wf_refuses_hex_lf : (Instr.charHex 0x0A).wf = false := by decide
theorem test_wf_refuses_bad_digit : (Instr.charBad 0x30).wf = false := by decide
theorem test_wf_refuses_bad_lf : (Instr.charBad 0x0A).wf = false := by decide
theorem test_wf_refuses_bad_cr : (Instr.charBad 0x0D).wf = false := by decide

/-! ### Words written out from R71 and R86, one for each constructor -/

theorem test_decode_nop : decode 0b0000_0000_0000_0000 = .ok .nop := by decide
theorem test_decode_charLf : decode 0b0001_0000_0000_1010 = .ok .charLf := by decide
theorem test_decode_charCr : decode 0b0001_0000_0000_1101 = .ok .charCr := by decide
theorem test_decode_charHex : decode 0b0001_0000_0110_0110 = .ok (.charHex 0x66) := by decide
theorem test_decode_charBad : decode 0b0001_0000_0100_0111 = .ok (.charBad 0x47) := by decide
theorem test_decode_crcinit : decode 0b0010_0000_0000_0000 = .ok .crcinit := by decide
theorem test_decode_crcupd : decode 0b0011_0000_1000_0001 = .ok (.crcupd 0x81) := by decide
theorem test_decode_rdreg : decode 0b0100_0000_0000_0110 = .ok (.rdreg .rBcnt) := by decide
theorem test_decode_wrctl : decode 0b0101_0000_0000_0001 = .ok (.wrctl false true) := by decide
theorem test_decode_rdtbl : decode 0b0110_0000_1111_1110 = .ok (.rdtbl 0xFE) := by decide

/-- V51: the illegal words of R82 and R83. -/
theorem test_decode_illegal :
    ([0x0001, 0x110A, 0x2001, 0x3100, 0x4008, 0x5004, 0x6100, 0x7000, 0xFFFF] : List Word).all
      (fun w => (decode w).toOption.isNone) = true := by decide

theorem test_table_word : decodeTableWord 16 0x1041 = some (.charHex 0x41) := by decide
theorem test_table_word_illegal : decodeTableWord 16 0x7ABC = none := by decide

/-! ### The CRC -/

/-- V7: the CRC of "123456789". -/
theorem test_crc_check_value : crc16 [0x31, 0x32, 0x33, 0x34, 0x35, 0x36, 0x37, 0x38, 0x39] = 0x4B37 := by decide
/-- V11: the range contract. -/
theorem test_crc_range : crc16Range [0xAA, 0x01, 0x03, 0x00, 0x00, 0x00, 0x02, 0xBB] 1 6 = some 0x0BC4 := by decide
/-- V13: the bit-shift form. -/
theorem test_crc_shift : crcUpdShift 0xFFFF 0x01 = 0x807E := by decide

/-! ### One step of each command -/

/-- The state a step answers. -/
def after (o : Host.Outcome State Fault Refusal) : Option State :=
  match o with
  | .next s => some s
  | .fault _ => none
  | .refused _ => none

/-- A state with one command word waiting. -/
def given (cw : Word) (s : State) : State := { s with inputs := [.command cw] }

/-- From reset, with this frame path. -/
def inFrame (f : FramePath) : State := { State.reset with frame := f }

/-- V49: after the text "010". -/
def frame010 : FramePath := { FramePath.empty with ph := true, hn := 0x0, ult := 0x01, dln := 1, bcnt := 1 }
/-- V49: after the text "0103Z". -/
def frame0103Z : FramePath :=
  { FramePath.empty with ph := true, hbad := true, pen := 0x01, ult := 0x03, dln := 2, bcnt := 2 }
/-- V20, before its terminator: eight bytes, the last two C4 0B. -/
def frameGood : FramePath := { FramePath.empty with fcrc := 0x0BC4, pen := 0xC4, ult := 0x0B, dln := 2, bcnt := 8 }
/-- V23, before its terminator: the last byte is wrong. -/
def frameWrong : FramePath := { frameGood with ult := 0x0C }

/-- V49, the text "010300": the second "0" completes the byte 00 and 01 enters FCRC. -/
theorem test_charHex_push : (after (step (given 0x1030 (inFrame { FramePath.empty with
      ph := true, hn := 0x0, pen := 0x01, ult := 0x03, dln := 2, bcnt := 2 })))).map
        (fun t => (t.frame.fcrc, t.frame.pen, t.frame.ult, t.frame.bcnt, t.events)) =
    some (0x807E, 0x03, 0x00, 3, [0x10000]) := by decide
/-- R127's example: '3' after '0' is the byte 03; the first character is the high nibble. -/
theorem test_charHex_pair : (after (step (given 0x1033 (inFrame frame010)))).map
    (fun t => (t.frame.ult, t.frame.pen, t.frame.dln, t.events)) = some (0x03, 0x01, 2, [0x10003]) := by decide
/-- V31: a good first character does not rescue the pair. -/
theorem test_charBad_pair : (after (step (given 0x105A (inFrame { FramePath.empty with ph := true, hn := 1 })))).map
    (fun t => (t.frame.ecnt, t.frame.bcnt, t.frame.hn, t.events)) = some (1, 1, 0, [0x10000]) := by decide
/-- R128's example: a bad first character is held, with no event and no count. -/
theorem test_charBad_held : (after (step (given 0x105A State.reset))).map
    (fun t => (t.frame.ph, t.frame.hbad, t.frame.ecnt, t.events)) = some (true, true, 0, []) := by decide
/-- R60: a carriage return between the characters of a pair leaves the half pair. -/
theorem test_charCr_inside : (after (step (given 0x100D (inFrame frame010)))).map (·.frame) = some frame010 := by decide
/-- R130's example. -/
theorem test_charLf_good : (after (step (given 0x100A (inFrame frameGood)))).map
    (fun t => (t.results.rCrcc, t.results.rCrcr, t.results.rBcnt, t.events)) =
      some (0x0BC4, 0x0BC4, 8, [0x20007]) := by decide
/-- V24: a mismatch under reject. -/
theorem test_charLf_reject : (after (step (given 0x100A { inFrame frameWrong with sev := true }))).map
    (fun t => (t.results.rCrcr, t.events)) = some (0x0CC4, [0x20001]) := by decide
/-- R109's example. -/
theorem test_crcinit : (after (step (given 0x2000 { State.reset with dcrc := 0x1234 }))).map (·.dcrc) = some 0xFFFF := by
  decide
/-- P1: the second byte. -/
theorem test_crcupd : (after (step (given 0x3003 { State.reset with dcrc := 0x807E }))).map (·.dcrc) = some 0x2140 := by
  decide
/-- V49, "0": STATUS reads 0x0002 while a character is held. -/
theorem test_rdreg_busy : (after (step (given 0x4001 (inFrame { FramePath.empty with ph := true })))).map (·.events) =
    some [0x30002] := by decide
/-- V50c: CTRL reads 3. -/
theorem test_rdreg_ctrl : (after (step (given 0x4000 { State.reset with swap := true, sev := true }))).map (·.events) =
    some [0x30003] := by decide
/-- R153: 0x5001 is reject, low byte first. -/
theorem test_wrctl : (after (step (given 0x5001 { State.reset with swap := true }))).map (fun t => (t.sev, t.swap)) =
    some (true, false) := by decide
/-- V19. -/
theorem test_rdtbl : (after (step (given 0x60FE State.reset))).map (·.events) = some [0x38081] := by decide
/-- V51: an illegal word. -/
theorem test_illegal : (after (step (given 0x110A State.reset))).map (fun t => (t.ill, t.frame, t.events)) =
    some (true, FramePath.empty, [0xF110A]) := by decide
theorem test_nop : (after (step (given 0x0000 (inFrame frame010)))) = some (inFrame frame010) := by decide
theorem test_fetch_word : (after (step (State.reset.withFetchWord 16 0x3001))).map (·.dcrc) = some 0x807E := by decide
theorem test_reset_input :
    after (step { inFrame frame0103Z with ill := true, inputs := [.reset], events := [0x10001] }) =
      some { State.reset with events := [0x10001] } := by decide
/-- V58: the leftover finds ECNT at its maximum. -/
theorem test_charLf_eovf : (after (step (given 0x100A (inFrame { FramePath.empty with
      ph := true, fcrc := 0xFE54, dln := 2, bcnt := 0xFFFF, ecnt := 0xFFFF })))).map (·.events) =
    some [0x2005D] := by decide

/-! ### The notation -/

theorem test_asm_char : assembleLine ['c', 'h', 'a', 'r', ' ', '\'', 'A', '\''] = .ok [0x1041] := by decide
theorem test_asm_name : assembleLine ['R', 'D', 'R', 'E', 'G', ' ', 'D', 'C', 'R', 'C', ' ', '#', 'x'] = .ok [0x4002] := by
  decide
theorem test_asm_range : assembleLine ['w', 'r', 'c', 't', 'l', ' ', '4'] = .error .outOfRange := by decide
/-- V38: `text "\r\n"`. -/
theorem test_asm_text : assembleLine ['t', 'e', 'x', 't', ' ', '"', '\\', 'r', '\\', 'n', '"'] = .ok [0x100D, 0x100A] := by
  decide
/-- R87: `\xHH` for any byte; R88: `char 0x0A` follows. -/
theorem test_asm_frame : assembleLine ['f', 'r', 'a', 'm', 'e', ' ', '"', '\\', 'x', '8', 'F', '#', '"'] =
    .ok [0x108F, 0x1023, 0x100A] := by decide
theorem test_asm_crc16 : assembleLine ['c', 'r', 'c', '1', '6', ' ', '0', 'x', '3', '1', ',', ' ', '2'] =
    .ok [0x2000, 0x3031, 0x3002, 0x4002] := by decide
/-- R90: `ILL(0x7000)` is 0xF7000, `BYTE(0x03)` is 0x10003. -/
theorem test_render : renderEvent 0xF7000 = some ['I', 'L', 'L', '(', '0', 'x', '7', '0', '0', '0', ')'] ∧
    renderEvent 0x10003 = some ['B', 'Y', 'T', 'E', '(', '0', 'x', '0', '3', ')'] := by decide

/-! ### Witnesses: the hypotheses of every statement are met -/

theorem witness_DecodeOfEncode : ∀ i ∈ [Instr.nop, .charLf, .charCr, .charHex 0x66, .charBad 0xFF, .crcinit, .crcupd 0xFF,
    .rdreg .rEcnt, .wrctl true true, .rdtbl 0xFF], i.wf = true := by decide
theorem witness_EncodeOfDecode : decode 0x1046 = .ok (.charHex 0x46) := by decide
theorem witness_RowsInOrder : firstRow opcodeTable 0x10FF = some ⟨.charBad, 0x1000, 0xFF00⟩ ∧ opcodeTable.Perm opcodeTable ∧
    opcodeTable.Pairwise (fun a b => a.op = .charBad → b.op ∉ [Op.charLf, .charCr, .charHex]) :=
  ⟨by decide, .refl _, by decide⟩
theorem witness_ReservedBits :
    [0x0FFF#16, 0x1FFF, 0x2001, 0x3F00, 0x4008, 0x5FFC, 0x6FFF].all (fun cw => opField cw < 7) = true := by decide
theorem witness_NoHints : (0x7000 : Word) ≤ 0x7000 ∧ (0x7000 : Word) ≤ 0xFFFF := by decide
theorem witness_PseudoCommands : (∀ b ∈ [0, 255], b ≤ 255) ∧
    ∀ p ∈ [(['\\', 'r'], (0x0D : Byte)), (['\\', 'n'], 0x0A), (['\\', 'x', 'F', 'F'], 0xFF), (['\\', 'x', '0', '0'], 0x00)],
      EscapeSpells p.1 p.2 := ⟨by decide, by simp [EscapeSpells]; decide⟩
theorem witness_StringLines : [' ', '\t'].all isBlank = true ∧ [' '] ≠ [] ∧ lineEnds [' ', '#', 'x'] = true ∧
    ∀ p ∈ [(['\\', 'r'], (0x0D : Byte)), (['\\', 'x', 'f', 'F'], 0xFF), (['#'], 0x23), (['0'], 0x30)],
      CharactersSpell p.1 p.2 := by
  refine ⟨by decide, by decide, by decide, fun p hp => ?_⟩
  simp only [List.mem_cons, List.not_mem_nil, or_false] at hp
  rcases hp with rfl | rfl | rfl | rfl
  · exact .inl (.inl ⟨rfl, rfl⟩)
  · exact .inr (.inl ⟨'f', 'F', rfl, .inr (by decide), .inl (by decide)⟩)
  · exact .inr (.inr ⟨'#', rfl, by decide, by decide, by decide, by decide⟩)
  · exact .inr (.inr ⟨'0', rfl, by decide, by decide, by decide, by decide⟩)
theorem witness_StepRuns : (given 0x5003 State.reset).inputs = .command 0x5003 :: [] ∧
    decode 0x5003 = .ok (.wrctl true true) := by decide
theorem witness_IllegalWord : opcodeTable.all (fun r => (0xFFFF#16 &&& r.mask) != r.pattern) = true ∧
    opcodeTable.all (fun r => (0x0001#16 &&& r.mask) != r.pattern) = true := by decide
theorem witness_Reset : ({ inFrame frame0103Z with inputs := [.reset] } : State).inputs = .reset :: [] := rfl
theorem witness_Range : 8 + 0 ≤ (List.replicate 8 (0 : Byte)).length ∧ 1 + 6 ≤ (List.replicate 8 (0 : Byte)).length ∧
    (List.replicate 8 (0 : Byte)).length < 8 + 1 := by decide
theorem witness_Crcinit : (0x2001 : Word) ≤ 0x2001 ∧ (0x2FFF : Word) ≤ 0x2FFF ∧ (0x2001 : Word) ≤ 0x2FFF := by decide
theorem witness_Crcupd : opField 0x3100 = 0x3 ∧ (0x3100 : Word).extractLsb' 8 4 ≠ 0 := by decide
theorem witness_Rdtbl : opField 0x6F00 = 0x6 ∧ (0x6F00 : Word).extractLsb' 8 4 ≠ 0 := by decide
theorem witness_DirectCrc : ({ inFrame frame010 with inputs := [.command 0x2000, .command 0x3001, .command 0x1033,
      .command 0x4002, .reset] } : State).inputs =
        List.map Input.command (0x2000#16 :: [0x3001#16, 0x1033#16] ++ [0x4002#16]) ++ [.reset] ∧
    0x2000#16 ∉ [0x3001#16, 0x1033#16] := ⟨rfl, by decide⟩
theorem witness_HexDigits : ((0x30 : Byte) ≤ 0x30 ∧ (0x39 : Byte) ≤ 0x39) ∧ ((0x41 : Byte) ≤ 0x41 ∧ (0x46 : Byte) ≤ 0x46) ∧
    ((0x61 : Byte) ≤ 0x61 ∧ (0x66 : Byte) ≤ 0x66) := by decide
theorem witness_PushByte : FramePath.empty.dln = 0 ∧ frame010.dln = 1 ∧ frame0103Z.dln = 2 ∧
    [(0x01 : Byte)].length = 1 ∧ 2 ≤ [(0x01 : Byte), 0x02].length ∧ frame0103Z.dln ≠ 3 ∧ frame0103Z.hbad = true ∧
    isHex 0x5A = false := by decide
theorem witness_CharHex : (Instr.charHex 0x66).wf = true ∧ State.reset.frame.ph = false ∧
    ((inFrame frame010).frame.ph = true ∧ (inFrame frame010).frame.hbad = false) ∧
    ((inFrame frame0103Z).frame.ph = true ∧ (inFrame frame0103Z).frame.hbad = true) := by decide
theorem witness_CharBad : (Instr.charBad 0x00).wf = true ∧ (Instr.charBad 0xFF).wf = true ∧
    State.reset.frame.ph = false ∧ (inFrame frame010).frame.ph = true := by decide
theorem witness_FlagBits : ∃ t, exec .charLf (inFrame frameGood) = .next t := ⟨_, rfl⟩
theorem witness_FramePathMoves : (Instr.charHex 0x30).wf = true ∧ (Instr.charBad 0x5A).wf = true ∧
    (∃ t, exec (.charHex 0x30) (inFrame frame010) = .next t) ∧ (∃ t, exec (.charBad 0x5A) State.reset = .next t) ∧
    (∃ t, exec (.charHex 0x30) (inFrame { frame010 with dln := 0 }) = .next t) ∧
    (∃ t, exec (.charHex 0x30) (inFrame frame0103Z) = .next t) ∧
    (∃ t, exec .charCr State.reset = .next t) ∧ (∃ t, exec .charLf State.reset = .next t) ∧
    opField 0x0FFF ≠ 0x1 ∧ opField 0x2000 ≠ 0x1 :=
  ⟨by decide, by decide, ⟨_, rfl⟩, ⟨_, rfl⟩, ⟨_, rfl⟩, ⟨_, rfl⟩, ⟨_, rfl⟩, ⟨_, rfl⟩, by decide, by decide⟩
theorem witness_EveryStep : State.reset.inputs = [] := rfl
theorem witness_Nop : (0x0001 : Word) ≤ 0x0001 ∧ (0x0001 : Word) ≤ 0x0FFF := by decide
theorem witness_Rdreg : (0x4008 : Word) ≤ 0x4008 ∧ (0x4008 : Word) ≤ 0x4FFF := by decide
theorem witness_Wrctl : (0x5004 : Word) ≤ 0x5004 ∧ (0x5004 : Word) ≤ 0x5FFF := by decide
/-- For every constructor a well-formed command that gives a next state, in a state with a character held and in one
without. -/
theorem witness_EveryCommand : ∀ i ∈ [Instr.nop, .charLf, .charCr, .charHex 0x66, .charBad 0xFF, .crcinit, .crcupd 0xFF,
    .rdreg .rEcnt, .wrctl true true, .rdtbl 0xFF], i.wf = true ∧
      (after (exec i State.reset)).isSome = true ∧ (after (exec i (inFrame frame010))).isSome = true := by decide
theorem witness_OnlyTerminator : (∃ t, runWord 0x100A State.reset = .next t) ∧
    (∃ t, runWord 0x100D State.reset = .next t) ∧ (0x100D : Word) ≠ 0x100A := ⟨⟨_, rfl⟩, ⟨_, rfl⟩, by decide⟩
theorem witness_OnlyTheirCommands : (∃ t, runWord 0x1030 State.reset = .next t) ∧
    opField 0x1030 ≠ 0x2 ∧ opField 0x1030 ≠ 0x3 ∧ opField 0x1030 ≠ 0x5 :=
  ⟨⟨_, rfl⟩, by decide, by decide, by decide⟩
theorem witness_IllegalBit : ({ State.reset with ill := true } : State).ill = true ∧
    (∃ t, runWord 0x4001 { State.reset with ill := true } = .next t) ∧ Instr.rdreg .ctrl ≠ .rdreg .status ∧
    (∃ t, exec (.rdreg .ctrl) State.reset = .next t) := ⟨by decide, ⟨_, rfl⟩, by decide, ⟨_, rfl⟩⟩
theorem witness_CtrlSampled : Instr.charHex 0x30 ≠ .charLf ∧ Instr.charHex 0x30 ≠ .rdreg .ctrl ∧
    (∀ a b, Instr.charHex 0x30 ≠ .wrctl a b) ∧ (∃ t, exec (.charHex 0x30) State.reset = .next t) ∧
    (∃ u t, exec (.wrctl true true) (inFrame frameGood) = .next u ∧ exec .charLf u = .next t) ∧
    (∃ u t, exec .charLf (inFrame frameGood) = .next u ∧ exec (.wrctl true true) u = .next t) :=
  ⟨by decide, by decide, by decide, ⟨_, rfl⟩, ⟨_, _, rfl, rfl⟩, ⟨_, _, rfl, rfl⟩⟩
theorem witness_Idempotent : (∃ r, Instr.rdreg .ctrl = .rdreg r) ∧ (∃ k, Instr.rdtbl 0xFF = .rdtbl k) ∧
    (∃ t, exec (.rdreg .ctrl) State.reset = .next t) ∧ (∃ t, exec (.rdtbl 0xFF) State.reset = .next t) ∧
    (∃ t u, exec .crcinit State.reset = .next t ∧ exec .crcinit t = .next u) ∧
    (Instr.charHex 0x30).wf = true ∧ Instr.charLf.wf = true ∧ (Instr.crcupd 0).wf = true :=
  ⟨⟨_, rfl⟩, ⟨_, rfl⟩, ⟨_, rfl⟩, ⟨_, rfl⟩, ⟨_, _, rfl, rfl⟩, by decide, by decide, by decide⟩
/-- One word of each kind of event, and one without, runs. -/
theorem witness_Events : [0x1030#16, 0x100A, 0x4001, 0x7000, 0x0000].all
    (fun cw => (after (runWord cw (inFrame frame010))).isSome) = true := by decide
theorem witness_FrameInvariant : FrameInv (inFrame frame010).frame ∧ ∃ t, step (inFrame frame010) = .next t :=
  ⟨by constructor <;> decide, ⟨_, rfl⟩⟩
theorem witness_ResultsInvariant : FrameInv State.reset.frame ∧ ResultsInv State.reset.results ∧
    ∃ t, step (given 0x100A State.reset) = .next t := ⟨by constructor <;> decide, by constructor <;> decide, ⟨_, rfl⟩⟩
theorem witness_EventFormat : (∀ ev ∈ ({ State.reset with events := [0x100FF, 0x2007F] } : State).events, EventFormat ev) ∧
    ∃ t, step { State.reset with events := [0x100FF, 0x2007F] } = .next t := by
  refine ⟨fun ev h => ?_, ⟨_, rfl⟩⟩
  simp only [List.mem_cons, List.not_mem_nil, or_false] at h
  rcases h with rfl | rfl <;> constructor <;> decide
/-- V49: the frame path of a text, after "010", "0103Z" and nothing. -/
theorem witness_FramePathOfText : (inFrame frame010).frame = frameOf [0x30, 0x31, 0x30] ∧
    (inFrame frame0103Z).frame = frameOf [0x30, 0x31, 0x30, 0x33, 0x5A] ∧ State.reset.frame = frameOf [] := by decide
theorem witness_Counters : (frameOf [0x5A, 0x5A]).fbovf = false ∧ (frameOf [0x5A, 0x5A]).feovf = false := by decide
theorem witness_Busy : State.reset.frame = frameOf [] ∧ (∃ t, exec (.rdreg .status) State.reset = .next t) ∧
    (inFrame frame010).frame = frameOf [0x30, 0x31, 0x30] ∧ ∃ t, exec (.rdreg .status) (inFrame frame010) = .next t :=
  ⟨by decide, ⟨_, rfl⟩, by decide, ⟨_, rfl⟩⟩
theorem witness_TextLength : (inFrame frame010).frame = frameOf [0x30, 0x31, 0x30] ∧
    (after (exec .charLf (inFrame frame010))).map (·.results.rFlags.getLsbD 5) = some false := by decide
/-- V33, "01ZZ03": a stream of three pairs; and the empty stream, with fewer than two bytes. -/
theorem witness_WholeFrame : State.reset.frame = FramePath.empty ∧
    Config.terminator ∉ [(0x30 : Byte), 0x31, 0x5A, 0x5A, 0x30, 0x33] ∧ Config.terminator ∉ ([] : List Byte) ∧
    ({ State.reset with inputs := [.command 0x100A] } : State).inputs = feed [] ++ .command 0x100A :: [] ∧
    2 ≤ (decodedBytes (frameText [0x30, 0x31, 0x5A, 0x5A, 0x30, 0x33])).length ∧
    (decodedBytes (frameText [])).length < 2 := by decide
theorem witness_SameText : State.reset.frame = (inFrame FramePath.empty).frame ∧
    Config.terminator ∉ [(0x0D : Byte), 0x41] ∧
    ({ State.reset with inputs := [.command 0x100D, .command 0x1041, .command 0x100A, .reset] } : State).inputs =
      feed [0x0D, 0x41] ++ .command 0x100A :: [.reset] ∧
    ({ inFrame FramePath.empty with inputs := [.command 0x100D, .command 0x1041, .command 0x100A] } : State).inputs =
      feed [0x0D, 0x41] ++ .command 0x100A :: [] := by decide

end Sys2Proof.Tests
end

section
/-! SUPPORT. The result registers and the command that writes them (spec/10_state.md R43): which word is the frame
terminator's, what a command word leads to, and the obligation of this family. -/

namespace Sys2Proof.Proofs.ResultRegisters

open Sys2Proof.Machine Sys2Proof.Laws

/-! ### The terminator's word -/

theorem withOperands_eq_charLf_iff (op : Op) (cw : Word) : withOperands op cw = .charLf ↔ op = .charLf := by
  cases op <;> simp [withOperands]

theorem mem_and_hits_of_firstRow (rows : List Row) (cw : Word) (r : Row) (h : firstRow rows cw = some r) :
    r ∈ rows ∧ r.hits cw = true := by
  unfold firstRow at h
  exact ⟨List.mem_of_find?_eq_some h, List.find?_some (p := fun r : Row => r.hits cw) h⟩

/-- The row of CHAR.LF masks no bit away, so it hits one word only (R80). -/
theorem eq_0x100A_of_hits_charLf (r : Row) (cw : Word) (hmem : r ∈ opcodeTable) (hop : r.op = .charLf)
    (hhit : r.hits cw = true) : cw = 0x100A := by
  have hrow : ∀ r ∈ opcodeTable, r.op = .charLf → r.pattern = 0x100A#16 ∧ r.mask = BitVec.allOnes 16 := by decide
  obtain ⟨hpattern, hmask⟩ := hrow r hmem hop
  rw [Row.hits, hpattern, hmask, BitVec.and_allOnes, beq_iff_eq] at hhit
  exact hhit

theorem decode_eq_charLf_iff (cw : Word) : decode cw = .ok .charLf ↔ cw = 0x100A := by
  refine ⟨fun h => ?_, fun h => h ▸ rfl⟩
  unfold decode at h
  split at h
  · next r hr =>
    have hop : r.op = .charLf := (withOperands_eq_charLf_iff r.op cw).mp (Except.ok.inj h)
    obtain ⟨hmem, hhit⟩ := mem_and_hits_of_firstRow opcodeTable cw r hr
    exact eq_0x100A_of_hits_charLf r cw hmem hop hhit
  · contradiction

/-! ### What a command word leads to -/

/-- What one command word can do: its command's effect, or the report that it encodes none. -/
theorem runWord_inversion (cw : Word) (s t : State) (h : runWord cw s = .next t) :
    (∃ i, decode cw = .ok i ∧ t = effect i s) ∨ (∃ w, decode cw = .error w ∧ t = raiseIllegal cw s) := by
  rcases hd : decode cw with w | i
  · rw [runWord_illegal cw w s hd] at h
    cases h; exact .inr ⟨w, rfl, rfl⟩
  · rw [runWord_command cw i s hd] at h
    cases h; exact .inl ⟨i, rfl, rfl⟩

theorem effect_results_of_ne_charLf (i : Instr) (s : State) (h : i ≠ .charLf) : (effect i s).results = s.results := by
  cases i with
  | charLf => contradiction
  | charHex c | charBad c => exact dataChar_results s c
  | rdreg r => exact emit_results s .rval _
  | wrctl swap sev => exact writeCtrl_results s swap sev
  | rdtbl k => exact emit_results s .rval _
  | nop | charCr | crcinit | crcupd b => rfl

theorem runWord_results_of_ne_terminator (cw : Word) (s t : State) (h : runWord cw s = .next t) (hcw : cw ≠ 0x100A) :
    t.results = s.results := by
  obtain ⟨i, hd, rfl⟩ | ⟨w, -, rfl⟩ := runWord_inversion cw s t h
  · exact effect_results_of_ne_charLf i s fun hi => hcw ((decode_eq_charLf_iff cw).mp (hi ▸ hd))
  · exact raiseIllegal_results s cw

theorem runWord_terminator (s : State) : runWord 0x100A s = .next (endFrame s) :=
  runWord_command 0x100A .charLf s ((decode_eq_charLf_iff _).mpr rfl)

/-! ### The obligation -/

/-- Settles O37: only 0x100A decodes to CHAR.LF, the one command whose effect touches the results, and it ends the
frame. -/
theorem onlyTheTerminatorWritesResults : Obligations.OnlyTheTerminatorWritesResults := by
  intro s t cw h
  refine ⟨runWord_results_of_ne_terminator cw s t h, fun hcw => ?_⟩
  subst hcw
  rw [runWord_terminator] at h
  cases h
  rw [endFrame_results]
  exact ⟨rfl, rfl, rfl, rfl, rfl⟩

end Sys2Proof.Proofs.ResultRegisters
end

section
/-! SUPPORT. What repeating a command changes (spec/20_memory.md R62): the reads move only the event port, the commands
that write settings write the same values again, and a data character, the terminator and CRCUPD go on from the state they
left. -/

namespace Sys2Proof.Proofs.Repetition

open Sys2Proof.Machine Sys2Proof.Laws

/-- `t` is `s` but for the event port: no bit of the block and no input differs. -/
def SameButEvents (s t : State) : Prop := t = { s with events := t.events }

theorem SameButEvents.frame_eq {s t : State} (h : SameButEvents s t) : t.frame = s.frame :=
  (congrArg State.frame h).trans rfl

theorem SameButEvents.dcrc_eq {s t : State} (h : SameButEvents s t) : t.dcrc = s.dcrc :=
  (congrArg State.dcrc h).trans rfl

theorem SameButEvents.results_eq {s t : State} (h : SameButEvents s t) : t.results = s.results :=
  (congrArg State.results h).trans rfl

theorem sameButEvents_refl (s : State) : SameButEvents s s := rfl

theorem sameButEvents_emit (k : EventKind) (pay : Word) (s : State) : SameButEvents s (emit k pay s) := rfl

/-! ### The commands whose repetition changes nothing more -/

theorem sameButEvents_effect_of_read (i : Instr) (s : State) (h : (∃ r, i = .rdreg r) ∨ ∃ k, i = .rdtbl k) :
    SameButEvents s (effect i s) := by
  obtain ⟨r, rfl⟩ | ⟨k, rfl⟩ := h
  · exact sameButEvents_emit .rval (readReg r s) s
  · exact sameButEvents_emit .rval (tableEntry k) s

theorem writeCtrl_writeCtrl (swap sev : Bool) (s : State) :
    writeCtrl swap sev (writeCtrl swap sev s) = writeCtrl swap sev s := rfl

theorem effect_crcinit_twice (s : State) : effect .crcinit (effect .crcinit s) = effect .crcinit s := rfl

theorem sameButEvents_effect_twice (i : Instr) (s : State) (hlf : i ≠ .charLf) (hhex : ∀ c, i ≠ .charHex c)
    (hbad : ∀ c, i ≠ .charBad c) (hcrc : ∀ b, i ≠ .crcupd b) :
    SameButEvents (effect i s) (effect i (effect i s)) := by
  cases i with
  | charLf => contradiction
  | charHex c => exact absurd rfl (hhex c)
  | charBad c => exact absurd rfl (hbad c)
  | crcupd b => exact absurd rfl (hcrc b)
  | rdreg r => exact sameButEvents_effect_of_read _ _ (.inl ⟨r, rfl⟩)
  | rdtbl k => exact sameButEvents_effect_of_read _ _ (.inr ⟨k, rfl⟩)
  | nop | charCr => exact sameButEvents_refl s
  | crcinit => rw [effect_crcinit_twice]; exact sameButEvents_refl _
  | wrctl swap sev => simp only [effect, writeCtrl_writeCtrl]; exact sameButEvents_refl _

/-! ### The commands whose repetition changes more -/

@[simp] theorem completePair_ph (c : Byte) (f : FramePath) : (completePair c f).ph = false := rfl

theorem dataChar_frame_ph (c : Byte) (s : State) : (dataChar c s).frame.ph = !s.frame.ph := by
  rw [dataChar_frame]
  cases s.frame.ph <;> simp

/-- A data character toggles the pairing phase, so its repetition does too. -/
theorem not_sameButEvents_dataChar (c : Byte) (s : State) : ¬ SameButEvents s (dataChar c s) := by
  intro h
  have hph := congrArg FramePath.ph h.frame_eq
  rw [dataChar_frame_ph] at hph
  exact Bool.not_ne_self _ hph

theorem endFrame_rEcnt (s : State) : (endFrame s).results.rEcnt = finalErrors s.frame := rfl

theorem finalErrors_ne_zero_of_held (f : FramePath) (h : f.ph = true) : finalErrors f ≠ 0 := by
  rw [finalErrors, if_pos h]
  exact satInc_ne_zero f.ecnt

/-- A terminator after a held character counts it as an error; the next one ends an empty frame, which has none. -/
theorem not_sameButEvents_endFrame_twice (s : State) (h : s.frame.ph = true) :
    ¬ SameButEvents (endFrame s) (endFrame (endFrame s)) := by
  intro hsame
  have herr := congrArg Results.rEcnt hsame.results_eq
  rw [endFrame_rEcnt, endFrame_rEcnt, endFrame_frame] at herr
  exact finalErrors_ne_zero_of_held s.frame h herr.symm

/-- A second update by the same byte, after the first from the initial value, moves the CRC again. -/
theorem crcUpd_crcUpd_start_ne (b : Byte) :
    crcUpd (crcUpd Config.crcStart b) b ≠ crcUpd Config.crcStart b := by
  revert b; decide +kernel

theorem exists_repetition_changes_more (i : Instr)
    (h : i = .charLf ∨ (∃ c, i = .charHex c) ∨ (∃ c, i = .charBad c) ∨ ∃ b, i = .crcupd b) :
    ∃ s, ¬ SameButEvents (effect i s) (effect i (effect i s)) := by
  obtain rfl | ⟨c, rfl⟩ | ⟨c, rfl⟩ | ⟨b, rfl⟩ := h
  · exact ⟨dataChar 0x30 State.reset, not_sameButEvents_endFrame_twice _ (dataChar_frame_ph 0x30 State.reset)⟩
  · exact ⟨State.reset, not_sameButEvents_dataChar c _⟩
  · exact ⟨State.reset, not_sameButEvents_dataChar c _⟩
  · exact ⟨State.reset, fun hsame => crcUpd_crcUpd_start_ne b hsame.dcrc_eq⟩

/-! ### The obligation -/

/-- Settles O41: a read's effect is an event, a command outside the four forms does the same again or nothing, and each of
the four forms has a state in which its second run moves PH, R_ECNT or DCRC once more. -/
theorem readsAndSettingsAreIdempotent : Obligations.ReadsAndSettingsAreIdempotent := by
  refine ⟨fun i s t hread ht => ?_, fun i s t u hlf hhex hbad hcrc ht hu => ?_, fun i _ hi => ?_⟩
  · obtain rfl := (exec_next_iff i s t).mp ht
    exact sameButEvents_effect_of_read i s hread
  · obtain rfl := (exec_next_iff i s t).mp ht
    obtain rfl := (exec_next_iff i _ u).mp hu
    exact sameButEvents_effect_twice i s hlf hhex hbad hcrc
  · obtain ⟨s, hs⟩ := exists_repetition_changes_more i hi
    exact ⟨s, effect i s, effect i (effect i s), exec_eq_effect i s, exec_eq_effect i _, hs⟩

end Sys2Proof.Proofs.Repetition
end

section
/-! SUPPORT. The values of command words (spec/30_encoding.md R70, R71): a word from its opcode and its operand as a number,
the words that are commands as ranges of numbers, and what a row's mask leaves open. -/

namespace Sys2Proof.Proofs.CommandWords

open Sys2Proof.Machine Sys2Proof.Laws

/-! ### A word from its opcode and its operand -/

theorem commandWord_toNat (op : BitVec 4) (low : Byte) :
    (commandWord op low).toNat = op.toNat * 4096 + low.toNat := by
  rw [commandWord, BitVec.toNat_append, BitVec.toNat_append, ← Nat.shiftLeft_add_eq_or_of_lt low.isLt,
    ← Nat.shiftLeft_add_eq_or_of_lt (BitVec.isLt _)]
  simp only [Nat.shiftLeft_eq, BitVec.toNat_ofNat]
  omega

theorem commandWord_eq_add (op : BitVec 4) (low : Byte) :
    commandWord op low = (op ++ 0#12) + low.setWidth 16 := by
  apply BitVec.eq_of_toNat_eq
  rw [commandWord_toNat, BitVec.toNat_add, BitVec.toNat_append]
  simp only [Nat.shiftLeft_eq, BitVec.toNat_setWidth, BitVec.toNat_ofNat, Nat.zero_mod, Nat.or_zero]
  omega

/-- An operand of at most eight bits stands in the low byte as its number. -/
theorem commandWord_ofNat (op : BitVec 4) (w n : Nat) (hw : w ≤ 8) (hn : n < 2 ^ w) :
    commandWord op ((BitVec.ofNat w n).setWidth 8) = (op ++ 0#12) + BitVec.ofNat 16 n := by
  have h8 : 2 ^ w ≤ 2 ^ 8 := Nat.pow_le_pow_right (by decide) hw
  rw [commandWord_eq_add]
  congr 1
  apply BitVec.eq_of_toNat_eq
  simp only [BitVec.toNat_setWidth, BitVec.toNat_ofNat, Nat.mod_eq_of_lt hn]
  omega

theorem decode_commandWord (op : BitVec 4) (low : Byte) :
    decode (commandWord op low) = decodeHalves (op ++ 0#4) low := by
  rw [decode_eq_halves, commandWord_high, commandWord_low]

theorem encode_charInstr (c : Byte) : encode (charInstr c) = 0x1000 + c.setWidth 16 := by
  have hclass : encode (charInstr c) = commandWord 0x1 c := by
    unfold charInstr charClass
    split_ifs with hlf hcr
    · rw [hlf]; rfl
    · rw [hcr]; rfl
    · rfl
    · rfl
  rw [hclass, commandWord_eq_add]
  rfl

theorem decode_charWord (c : Byte) : decode (0x1000 + c.setWidth 16) = .ok (charInstr c) := by
  have hword : 0x1000 + c.setWidth 16 = commandWord 0x1 c := (commandWord_eq_add 0x1 c).symm
  rw [hword, decode_commandWord]
  rfl

/-! ### The words that are commands -/

/-- The number of a word that is a command: no bit that its format marks 0 is set (R71). -/
def IsCommandNumber (n : Nat) : Prop :=
  n = 0x0000 ∨ (0x1000 ≤ n ∧ n ≤ 0x10FF) ∨ n = 0x2000 ∨ (0x3000 ≤ n ∧ n ≤ 0x30FF) ∨
    (0x4000 ≤ n ∧ n ≤ 0x4007) ∨ (0x5000 ≤ n ∧ n ≤ 0x5003) ∨ (0x6000 ≤ n ∧ n ≤ 0x60FF)

theorem decodeHalves_error_iff (hi lo : Byte) : (∃ w, decodeHalves hi lo = .error w) ↔
    ¬ (hi = 0x10#8 ∨ hi = 0x30#8 ∨ hi = 0x60#8 ∨ ((hi = 0x00#8 ∨ hi = 0x20#8) ∧ lo = 0#8) ∨
      (hi = 0x40#8 ∧ lo < 8#8) ∨ (hi = 0x50#8 ∧ lo < 4#8)) := by
  unfold decodeHalves
  split_ifs <;> simp_all

theorem decode_error_iff (cw : Word) : (∃ w, decode cw = .error w) ↔ ¬ IsCommandNumber cw.toNat := by
  rw [decode_eq_halves, decodeHalves_error_iff, not_iff_not]
  simp only [← BitVec.toNat_inj, BitVec.lt_def, BitVec.extractLsb'_toNat, Nat.shiftRight_eq_div_pow, BitVec.toNat_ofNat,
    IsCommandNumber]
  omega

theorem opField_toNat (cw : Word) : (opField cw).toNat = cw.toNat / 0x1000 := by
  rw [opField, BitVec.extractLsb'_toNat, Nat.shiftRight_eq_div_pow]
  omega

/-! ### The row of a decoded word -/

theorem row_of_decode (cw : Word) (i : Instr) (h : decode cw = .ok i) :
    ∃ r ∈ opcodeTable, r.hits cw = true ∧ withOperands r.op cw = i := by
  unfold decode at h
  split at h
  · next r hr =>
    obtain ⟨hmem, hhit⟩ := ResultRegisters.mem_and_hits_of_firstRow opcodeTable cw r hr
    exact ⟨r, hmem, hhit, Except.ok.inj h⟩
  · contradiction

theorem eq_pattern_of_hits (r : Row) (cw : Word) (hmask : r.mask = BitVec.allOnes 16) (hhit : r.hits cw = true) :
    cw = r.pattern := by
  rw [Row.hits, hmask, BitVec.and_allOnes, beq_iff_eq] at hhit
  exact hhit

end Sys2Proof.Proofs.CommandWords
end

section
/-! SUPPORT. The classes of characters and the words with reserved bits (spec/30_encoding.md R75, R82). -/

namespace Sys2Proof.Proofs.WordClasses

open Sys2Proof.Machine Sys2Proof.Laws Sys2Proof.Proofs.CommandWords

theorem charInstr_eq (c : Byte) : charInstr c =
    if c = 0x0A then .charLf
    else if c = 0x0D then .charCr
    else if (0x30 ≤ c ∧ c ≤ 0x39) ∨ (0x41 ≤ c ∧ c ≤ 0x46) ∨ (0x61 ≤ c ∧ c ≤ 0x66) then .charHex c
    else .charBad c := by
  have hhex : isHex c = true ↔ (0x30 ≤ c ∧ c ≤ 0x39) ∨ (0x41 ≤ c ∧ c ≤ 0x46) ∨ (0x61 ≤ c ∧ c ≤ 0x66) := by
    simp [isHex, or_assoc]
  have hlf : c = 0x0A ↔ c = Config.terminator := Iff.rfl
  have hcr : c = 0x0D ↔ c = Config.ignoredByte := Iff.rfl
  simp only [← hhex, hlf, hcr, charInstr, charClass]
  split_ifs <;> rfl

theorem charClass_counts :
    ([CharClass.lf, .cr, .hex, .bad].map fun k => (List.range 256).countP fun n => charClass (BitVec.ofNat 8 n) = k) =
      [1, 1, 22, 232] := by
  decide +kernel

/-- Settles O4: the word of a character decodes to the command the assembler chooses for it, which is its class's. -/
theorem charWordsDecodeByClass : Obligations.CharWordsDecodeByClass :=
  ⟨fun c => (decode_charWord c).trans (congrArg Except.ok (charInstr_eq c)), charClass_counts⟩

/-- Settles O6: the numbers of the commands are those whose format's zero bits are 0. -/
theorem reservedBitsMakeAWordIllegal : Obligations.ReservedBitsMakeAWordIllegal := by
  refine ⟨fun cw hop => ?_, fun cw hcw => ?_⟩
  · rw [decode_error_iff]
    simp only [BitVec.lt_def, ne_eq, ← BitVec.toNat_inj, opField_toNat, BitVec.extractLsb'_toNat, Nat.shiftRight_eq_div_pow,
      BitVec.ofNat_eq_ofNat, BitVec.toNat_ofNat, IsCommandNumber] at hop ⊢
    omega
  · simp only [List.mem_cons, List.not_mem_nil, or_false] at hcw
    rcases hcw with rfl | rfl | rfl | rfl | rfl | rfl | rfl <;> exact ⟨_, rfl⟩

end Sys2Proof.Proofs.WordClasses
end

section
/-! SUPPORT. The rows of the opcode map as sets of words (spec/30_encoding.md R76): rows that share no word, and the orders in
which the first row that hits is always the same. -/

namespace Sys2Proof.Proofs.RowOrder

open Sys2Proof.Machine

/-! ### Rows that share no word -/

/-- The rows ask different values of a bit that both masks keep. -/
def clash (a b : Row) : Bool := a.pattern &&& b.mask != b.pattern &&& a.mask

theorem not_hits_both_of_clash (a b : Row) (h : clash a b = true) (cw : Word) : ¬ (a.hits cw ∧ b.hits cw) := by
  rintro ⟨ha, hb⟩
  rw [Row.hits, beq_iff_eq] at ha hb
  have hsame : a.pattern &&& b.mask = b.pattern &&& a.mask := by
    rw [← ha, ← hb]; ac_rfl
  simp [clash, hsame] at h

/-- The row of CHAR.BAD (R80). -/
def badRow : Row := ⟨.charBad, 0x1000, 0xFF00⟩

theorem badRow_mem : badRow ∈ opcodeTable := by decide

theorem eq_badRow : ∀ b ∈ opcodeTable, b.op = .charBad → b = badRow := by decide

theorem rows_pairwise_clash : (opcodeTable.filter (·.op ≠ .charBad)).Pairwise (fun a b => clash a b = true) := by decide

/-- A CHAR row's own pattern is a word of CHAR.BAD's row too; any other row clashes with it. -/
theorem badRow_overlap : ∀ r ∈ opcodeTable, r.op ≠ .charBad →
    if r.op ∈ [Op.charLf, .charCr, .charHex] then r.hits r.pattern = true ∧ badRow.hits r.pattern = true
    else clash r badRow = true := by
  decide

theorem shares_word_with_bad_iff (r : Row) (hr : r ∈ opcodeTable) (hop : r.op ≠ .charBad) :
    (∃ b ∈ opcodeTable, b.op = .charBad ∧ ∃ cw, r.hits cw ∧ b.hits cw) ↔ r.op ∈ [Op.charLf, .charCr, .charHex] := by
  have hover := badRow_overlap r hr hop
  constructor
  · rintro ⟨b, hb, hbad, cw, hhits⟩
    rw [eq_badRow b hb hbad] at hhits
    by_contra hchar
    rw [if_neg hchar] at hover
    exact not_hits_both_of_clash r badRow hover cw hhits
  · intro hchar
    rw [if_pos hchar] at hover
    exact ⟨badRow, badRow_mem, rfl, r.pattern, hover⟩

/-! ### Orders of the rows -/

/-- `a` may stand before `b`: CHAR.BAD stands behind the other CHAR rows (R76). -/
def MayPrecede (a b : Row) : Prop := a.op = .charBad → b.op ∉ [Op.charLf, .charCr, .charHex]

theorem opcodeTable_pairwise_mayPrecede : opcodeTable.Pairwise MayPrecede := by
  unfold MayPrecede; decide

/-- Two different rows that may stand in either order share no word. -/
theorem eq_or_clash_of_mayPrecede : ∀ a ∈ opcodeTable, ∀ b ∈ opcodeTable, MayPrecede a b → MayPrecede b a →
    a = b ∨ clash a b = true := by
  unfold MayPrecede; decide

/-- The rows that hit a word stand in one order in every list that respects `MayPrecede`, so the first of them is the same. -/
theorem firstRow_eq_of_perm (rows : List Row) (hperm : rows.Perm opcodeTable) (hrows : rows.Pairwise MayPrecede)
    (cw : Word) : firstRow rows cw = firstRow opcodeTable cw := by
  have hfilter : rows.filter (·.hits cw) = opcodeTable.filter (·.hits cw) := by
    refine List.Perm.eq_of_pairwise (fun a b ha hb hab hba => ?_) (hrows.filter _)
      (opcodeTable_pairwise_mayPrecede.filter _) (hperm.filter _)
    obtain ⟨ha, hahit⟩ := List.mem_filter.mp ha
    obtain ⟨hb, hbhit⟩ := List.mem_filter.mp hb
    refine (eq_or_clash_of_mayPrecede a (hperm.mem_iff.mp ha) b hb hab hba).resolve_right fun hclash => ?_
    exact not_hits_both_of_clash a b hclash cw ⟨hahit, hbhit⟩
  rw [firstRow, firstRow, ← List.head?_filter, ← List.head?_filter, hfilter]

/-! ### The obligation -/

theorem decode_of_firstRow (cw : Word) (r : Row) (h : firstRow opcodeTable cw = some r) :
    decode cw = .ok (withOperands r.op cw) := by
  rw [decode, h]

theorem decode_error_iff_no_row (cw : Word) :
    (∃ w, decode cw = .error w) ↔ ∀ r ∈ opcodeTable, cw &&& r.mask ≠ r.pattern := by
  have hnone : firstRow opcodeTable cw = none ↔ ∀ r ∈ opcodeTable, cw &&& r.mask ≠ r.pattern := by
    simp only [firstRow, List.find?_eq_none, Row.hits, beq_iff_eq, ne_eq]
  rw [← hnone, decode]
  cases firstRow opcodeTable cw <;> simp

/-- Settles O5: two rows that hit one word are ordered by `MayPrecede` one way only, so every permitted order finds the same
row first. -/
theorem rowsDecodeAlikeInEveryOrderWithBadLast : Obligations.RowsDecodeAlikeInEveryOrderWithBadLast :=
  ⟨decode_of_firstRow, decode_error_iff_no_row,
    rows_pairwise_clash.imp fun h cw => not_hits_both_of_clash _ _ h cw,
    shares_word_with_bad_iff, firstRow_eq_of_perm⟩

end Sys2Proof.Proofs.RowOrder
end

section
/-! SUPPORT. The words that leave every state unchanged (spec/30_encoding.md R83). -/

namespace Sys2Proof.Proofs.NoOperations

open Sys2Proof.Machine Sys2Proof.Laws Sys2Proof.Proofs.CommandWords

theorem ne_of_new_event (s t : State) (ev : EventWord) (h : t.events = s.events ++ [ev]) : t ≠ s := by
  rintro rfl
  simp at h

/-- Every command but NOP and CHAR.CR changes some state; for the four whose repetition changes more, one of the two runs
does. -/
theorem exists_effect_ne (i : Instr) (hnop : i ≠ .nop) (hcr : i ≠ .charCr) : ∃ s, effect i s ≠ s := by
  have hrepeat (hi : i = .charLf ∨ (∃ c, i = .charHex c) ∨ (∃ c, i = .charBad c) ∨ ∃ b, i = .crcupd b) :
      ∃ s, effect i s ≠ s := by
    obtain ⟨s, hs⟩ := Repetition.exists_repetition_changes_more i hi
    refine ⟨effect i s, fun heq => hs ?_⟩
    rw [heq]
    exact Repetition.sameButEvents_refl _
  cases i with
  | nop | charCr => contradiction
  | charLf => exact hrepeat (.inl rfl)
  | charHex c => exact hrepeat (.inr (.inl ⟨c, rfl⟩))
  | charBad c => exact hrepeat (.inr (.inr (.inl ⟨c, rfl⟩)))
  | crcupd b => exact hrepeat (.inr (.inr (.inr ⟨b, rfl⟩)))
  | crcinit =>
    refine ⟨{ State.reset with dcrc := 0 }, fun h => ?_⟩
    have hdcrc := congrArg State.dcrc h
    exact absurd hdcrc (by decide)
  | rdreg r => exact ⟨State.reset, ne_of_new_event _ _ _ (emit_events _ _ _)⟩
  | rdtbl k => exact ⟨State.reset, ne_of_new_event _ _ _ (emit_events _ _ _)⟩
  | wrctl swap sev =>
    refine ⟨{ State.reset with swap := !swap }, fun h => ?_⟩
    have hswap := congrArg State.swap h
    exact Bool.self_ne_not swap hswap

/-- A command whose operation has one row, which masks no bit away, has one word. -/
theorem eq_of_decode_of_full_mask (op : Op) (pattern cw : Word) (i : Instr) (h : decode cw = .ok i)
    (hinstr : ∀ o, withOperands o cw = i → o = op)
    (hrow : ∀ r ∈ opcodeTable, r.op = op → r.pattern = pattern ∧ r.mask = BitVec.allOnes 16) : cw = pattern := by
  obtain ⟨r, hmem, hhit, hoperands⟩ := row_of_decode cw i h
  obtain ⟨hpattern, hmask⟩ := hrow r hmem (hinstr r.op hoperands)
  exact (eq_pattern_of_hits r cw hmask hhit).trans hpattern

theorem eq_of_decode_nop (cw : Word) (h : decode cw = .ok .nop) : cw = 0x0000 :=
  eq_of_decode_of_full_mask .nop 0x0000 cw .nop h (fun o => by cases o <;> simp [withOperands]) (by decide)

theorem eq_of_decode_charCr (cw : Word) (h : decode cw = .ok .charCr) : cw = 0x100D :=
  eq_of_decode_of_full_mask .charCr 0x100D cw .charCr h (fun o => by cases o <;> simp [withOperands]) (by decide)

theorem runWord_unchanged_iff (cw : Word) : (∀ s, runWord cw s = .next s) ↔ cw = 0x0000 ∨ cw = 0x100D := by
  constructor
  · intro hsame
    rcases hd : decode cw with w | i
    · have hrun := (runWord_illegal cw w State.reset hd).symm.trans (hsame State.reset)
      exact absurd (Host.Outcome.next.inj hrun) (ne_of_new_event _ _ _ (raiseIllegal_events State.reset cw))
    · have heffect (s : State) : effect i s = s :=
        Host.Outcome.next.inj ((runWord_command cw i s hd).symm.trans (hsame s))
      by_cases hnop : i = .nop
      · exact .inl (eq_of_decode_nop cw (hnop ▸ hd))
      by_cases hcr : i = .charCr
      · exact .inr (eq_of_decode_charCr cw (hcr ▸ hd))
      obtain ⟨s, hs⟩ := exists_effect_ne i hnop hcr
      exact absurd (heffect s) hs
  · rintro (rfl | rfl) s
    · exact runWord_command 0x0000 .nop s rfl
    · exact runWord_command 0x100D .charCr s rfl

theorem runWord_total (cw : Word) (s : State) : ∃ t, runWord cw s = .next t := by
  rcases hd : decode cw with w | i
  · exact ⟨_, runWord_illegal cw w s hd⟩
  · exact ⟨_, runWord_command cw i s hd⟩

/-- Settles O7: no command's number reaches 0x7000, and every command but NOP and CHAR.CR has a state that it changes. -/
theorem noHintsAndNoUndefinedWords : Obligations.NoHintsAndNoUndefinedWords := by
  refine ⟨fun cw hcw => ?_, runWord_unchanged_iff, runWord_total⟩
  have hnat : 0x7000 ≤ cw.toNat := hcw
  rw [decode_error_iff, IsCommandNumber]
  omega

end Sys2Proof.Proofs.NoOperations
end

section
/-! SUPPORT. The words that lines assemble to (spec/30_encoding.md R85 to R89): the operand of a line as a number, the bytes of
a string one `char` each, and a line as its mnemonic and the rest. -/

namespace Sys2Proof.Proofs.Assembling

open Sys2Proof.Machine Sys2Proof.Safety Sys2Proof.Laws Sys2Proof.Proofs.CommandWords

/-! ### Lines with one operand -/

theorem operandBelow_map (limit w n : Nat) (f : BitVec w → Word) {g : Nat → Word}
    (h : ∀ n ≤ limit, f (BitVec.ofNat w n) = g n) :
    ((operandBelow (limit + 1) w n).map fun v => [f v]) = if n ≤ limit then .ok [g n] else .error .outOfRange := by
  by_cases hn : n ≤ limit
  · rw [operandBelow, if_pos (Nat.lt_succ_of_le hn), if_pos hn, ← h n hn]; rfl
  · rw [operandBelow, if_neg (by omega), if_neg hn]; rfl

theorem regIndex_regOfIndex (r : BitVec 3) : regIndex (regOfIndex r) = r := by
  revert r; decide

theorem encode_charInstr_ofNat (n : Nat) (h : n ≤ 255) :
    encode (charInstr (BitVec.ofNat 8 n)) = 0x1000 + BitVec.ofNat 16 n := by
  rw [encode_charInstr, BitVec.setWidth_ofNat_of_le_of_lt (by decide) (by omega)]

theorem encode_crcupd_ofNat (n : Nat) (h : n ≤ 255) :
    encode (.crcupd (BitVec.ofNat 8 n)) = 0x3000 + BitVec.ofNat 16 n := by
  have hword := commandWord_ofNat 0x3 8 n (by decide) (by omega)
  rwa [BitVec.setWidth_eq] at hword

theorem encode_rdtbl_ofNat (n : Nat) (h : n ≤ 255) :
    encode (.rdtbl (BitVec.ofNat 8 n)) = 0x6000 + BitVec.ofNat 16 n := by
  have hword := commandWord_ofNat 0x6 8 n (by decide) (by omega)
  rwa [BitVec.setWidth_eq] at hword

theorem encode_rdreg_ofNat (n : Nat) (h : n ≤ 7) :
    encode (.rdreg (regOfIndex (BitVec.ofNat 3 n))) = 0x4000 + BitVec.ofNat 16 n := by
  rw [encode, regIndex_regOfIndex]
  exact commandWord_ofNat 0x4 3 n (by decide) (by omega)

theorem ctrlBits_eq (v : BitVec 2) :
    0#6 ++ BitVec.ofBool (v.getLsbD 1) ++ BitVec.ofBool (v.getLsbD 0) = v.setWidth 8 := by
  revert v; decide

theorem encode_wrctl_ofNat (n : Nat) (h : n ≤ 3) :
    encode (.wrctl ((BitVec.ofNat 2 n).getLsbD 1) ((BitVec.ofNat 2 n).getLsbD 0)) = 0x5000 + BitVec.ofNat 16 n := by
  rw [encode, ctrlBits_eq]
  exact commandWord_ofNat 0x5 2 n (by decide) (by omega)

/-- Settles O9: an operand in range stands in the low bits of the word of its opcode, and one past its limit is an error. -/
theorem assembledWordsAreTheSpecsWords : Obligations.AssembledWordsAreTheSpecsWords :=
  ⟨rfl, rfl,
    fun n => operandBelow_map 255 8 n (fun c => encode (charInstr c)) encode_charInstr_ofNat,
    fun n => operandBelow_map 255 8 n (fun b => encode (.crcupd b)) encode_crcupd_ofNat,
    fun n => operandBelow_map 7 3 n (fun r => encode (.rdreg (regOfIndex r))) encode_rdreg_ofNat,
    fun n => operandBelow_map 3 2 n (fun v => encode (.wrctl (v.getLsbD 1) (v.getLsbD 0))) encode_wrctl_ofNat,
    fun n => operandBelow_map 255 8 n (fun i => encode (.rdtbl i)) encode_rdtbl_ofNat,
    fun n => operandBelow_map 65535 16 n id fun _ _ => rfl,
    by decide⟩

/-! ### The pseudo-commands -/

theorem textWords_append (a b : List Byte) : textWords (a ++ b) = textWords a ++ textWords b :=
  List.map_append

theorem textWords_eq (s : List Byte) : textWords s = s.map fun c => 0x1000 + c.setWidth 16 :=
  List.map_congr_left fun c _ => encode_charInstr c

theorem assemble_text (s : List Byte) : assemble (.text s) = .ok (s.map fun c => 0x1000 + c.setWidth 16) := by
  rw [assemble, textWords_eq]

theorem assemble_frame (s : List Byte) :
    assemble (.frame s) = .ok (s.map (fun c => 0x1000 + c.setWidth 16) ++ [0x100A]) := by
  rw [assemble, textWords_append, textWords_eq]
  rfl

theorem crcupdWords_eq (bs : List Nat) (h : ∀ b ∈ bs, b ≤ 255) :
    crcupdWords bs = .ok (bs.map fun b => 0x3000 + BitVec.ofNat 16 b) := by
  induction bs with
  | nil => rfl
  | cons b bs ih =>
    obtain ⟨hb, hbs⟩ := List.forall_mem_cons.mp h
    have hoperand : operandBelow 256 8 b = .ok (BitVec.ofNat 8 b) := if_pos (by omega)
    rw [crcupdWords, hoperand, ih hbs, List.map_cons, ← encode_crcupd_ofNat b hb]

theorem assemble_crc16 (bs : List Nat) (h : ∀ b ∈ bs, b ≤ 255) :
    assemble (.crc16 bs) = .ok (0x2000 :: bs.map (fun b => 0x3000 + BitVec.ofNat 16 b) ++ [0x4002]) := by
  rw [assemble, crcupdWords_eq bs h]
  rfl

/-! ### Lines with a string -/

/-- A mnemonic ends at a blank or at a comment (R85). -/
def endsMnemonic (c : Char) : Bool := isBlank c || c == '#'

/-- A line is its mnemonic, then what follows from the first blank on. -/
theorem assembleLine_of_mnemonic (c : Char) (m rest : List Char) (hm : (c :: m).all (!endsMnemonic ·) = true) :
    assembleLine (c :: m ++ ' ' :: rest) = (parseOperand (c :: m) (' ' :: rest)).bind assemble := by
  have hkeep := List.all_eq_true.mp hm
  have hc : isBlank c = false ∧ c ≠ '#' := by simpa [endsMnemonic] using hkeep c (by simp)
  have hline : lineEnds (c :: m ++ ' ' :: rest) = false := by
    simp [lineEnds, dropComment, hc]
  have hbody : (c :: m ++ ' ' :: rest).dropWhile isBlank = c :: m ++ ' ' :: rest :=
    List.dropWhile_cons_of_neg (by simp [hc])
  have htake : (c :: m ++ ' ' :: rest).takeWhile (!endsMnemonic ·) = c :: m := by
    rw [List.takeWhile_append_of_pos hkeep]
    simp [endsMnemonic, isBlank]
  have hdrop : (c :: m ++ ' ' :: rest).dropWhile (!endsMnemonic ·) = ' ' :: rest := by
    rw [List.dropWhile_append_of_pos hkeep]
    simp [endsMnemonic, isBlank]
  rw [assembleLine, hline]
  simp only [hbody]
  exact congrArg₂ (fun a b => (parseOperand a b).bind assemble) htake hdrop

theorem parseOperand_text (cs : List Char) (bytes : List Byte) (h : parseString cs = some bytes) :
    parseOperand ['t', 'e', 'x', 't'] (' ' :: '"' :: cs) = .ok (.text bytes) := by
  have hspell : parseOperand ['t', 'e', 'x', 't'] (' ' :: '"' :: cs) =
    ((parseString cs).map AsmLine.text).elim (.error .badOperand) Except.ok := rfl
  rw [hspell, h]
  rfl

theorem parseOperand_frame (cs : List Char) (bytes : List Byte) (h : parseString cs = some bytes) :
    parseOperand ['f', 'r', 'a', 'm', 'e'] (' ' :: '"' :: cs) = .ok (.frame bytes) := by
  have hspell : parseOperand ['f', 'r', 'a', 'm', 'e'] (' ' :: '"' :: cs) =
    ((parseString cs).map AsmLine.frame).elim (.error .badOperand) Except.ok := rfl
  rw [hspell, h]
  rfl

theorem stringLines_assemble (pieces : List (List Char × Byte)) (h : ∀ p ∈ pieces, EscapeSpells p.1 p.2) :
    let string := '"' :: pieces.flatMap (·.1) ++ ['"']
    let words := pieces.map fun p => 0x1000 + p.2.setWidth 16
    assembleLine ('t' :: 'e' :: 'x' :: 't' :: ' ' :: string) = .ok words ∧
      assembleLine ('f' :: 'r' :: 'a' :: 'm' :: 'e' :: ' ' :: string) = .ok (words ++ [0x100A]) := by
  intro string words
  have hparse := parseString_pieces pieces [] rfl fun p hp => .inl (h p hp)
  have hwords : (pieces.map (·.2)).map (fun c => 0x1000 + c.setWidth 16) = words := List.map_map
  constructor
  · calc assembleLine ('t' :: 'e' :: 'x' :: 't' :: ' ' :: string)
        = (parseOperand ['t', 'e', 'x', 't'] (' ' :: string)).bind assemble :=
          assembleLine_of_mnemonic 't' ['e', 'x', 't'] string (by decide)
      _ = assemble (.text (pieces.map (·.2))) := congrArg (·.bind assemble) (parseOperand_text _ _ hparse)
      _ = .ok words := by rw [assemble_text, hwords]
  · calc assembleLine ('f' :: 'r' :: 'a' :: 'm' :: 'e' :: ' ' :: string)
        = (parseOperand ['f', 'r', 'a', 'm', 'e'] (' ' :: string)).bind assemble :=
          assembleLine_of_mnemonic 'f' ['r', 'a', 'm', 'e'] string (by decide)
      _ = assemble (.frame (pieces.map (·.2))) := congrArg (·.bind assemble) (parseOperand_frame _ _ hparse)
      _ = .ok (words ++ [0x100A]) := by rw [assemble_frame, hwords]

/-- Settles O10: every byte of a string has the word of its `char`, and each escape spells one byte. -/
theorem pseudoCommandsExpand : Obligations.PseudoCommandsExpand :=
  ⟨textWords_append, assemble_text, assemble_frame, assemble_crc16, stringLines_assemble⟩

end Sys2Proof.Proofs.Assembling
end

section
/-! SUPPORT. The event of every command, as one function of the command and the state before it (spec/30_encoding.md R73,
R74). -/

namespace Sys2Proof.Proofs.CommandEvents

open Sys2Proof.Machine Sys2Proof.Safety Sys2Proof.Laws

/-! ### Event words -/

@[simp] theorem evKind_eventWord (k : EventKind) (pay : Word) : evKind (eventWord k pay) = kindCode k :=
  BitVec.extractLsb'_append_eq_left

@[simp] theorem evPay_eventWord (k : EventKind) (pay : Word) : evPay (eventWord k pay) = pay :=
  BitVec.extractLsb'_append_eq_right

theorem setWidth_byte (b : Byte) : b.setWidth 16 = 0#8 ++ b :=
  BitVec.setWidth_eq_append (by decide)

/-- The bit above the seven flags is 0 (R31). -/
theorem setWidth_frameFlags (sev swap : Bool) (f : FramePath) :
    (frameFlags sev swap f).setWidth 16 = 0#9 ++ (frameFlags sev swap f).extractLsb' 0 7 := by
  obtain ⟨-, -, -, -, -, -, -, hreserved⟩ := packFlags_bits (errorsOverflow f) f.fbovf (finalErrors f != 0) f.ph
    (accepted sev swap f) (crcMatches swap f) (checkable f)
  have general : ∀ b : Byte, b.getLsbD 7 = false → b.setWidth 16 = 0#9 ++ b.extractLsb' 0 7 := by decide +kernel
  exact general _ hreserved

/-! ### The event of a command -/

/-- The event a command produces, if any. -/
def eventOf (i : Instr) (s : State) : Option EventWord :=
  match i with
  | .nop | .charCr | .crcinit | .crcupd _ | .wrctl _ _ => none
  | .charHex c | .charBad c =>
    if s.frame.ph then some (eventWord .byte ((pairByte c s.frame).setWidth 16)) else none
  | .charLf => some (eventWord .fend ((frameFlags s.sev s.swap s.frame).setWidth 16))
  | .rdreg r => some (eventWord .rval (readReg r s))
  | .rdtbl k => some (eventWord .rval (tableEntry k))

theorem effect_events (i : Instr) (s : State) : (effect i s).events = s.events ++ (eventOf i s).toList := by
  cases i with
  | nop | charCr | crcinit | crcupd b | wrctl swap sev => exact (List.append_nil _).symm
  | charLf | rdreg r | rdtbl k => rfl
  | charHex c | charBad c =>
    rw [effect, dataChar_events, eventOf]
    cases s.frame.ph <;> simp

theorem effect_new_event_iff (i : Instr) (s : State) (ev : EventWord) :
    (effect i s).events = s.events ++ [ev] ↔ eventOf i s = some ev := by
  rw [effect_events, List.append_cancel_left_eq]
  cases eventOf i s <;> simp

theorem effect_no_event_iff (i : Instr) (s : State) : (effect i s).events = s.events ↔ eventOf i s = none := by
  rw [effect_events]
  cases eventOf i s <;> simp

theorem eventOf_eq_none_iff (i : Instr) (s : State) : eventOf i s = none ↔
    i = .nop ∨ i = .charCr ∨ i = .crcinit ∨ (∃ b, i = .crcupd b) ∨ (∃ a b, i = .wrctl a b) ∨
      (s.frame.ph = false ∧ ((∃ c, i = .charHex c) ∨ ∃ c, i = .charBad c)) := by
  cases i <;> simp [eventOf]

/-- The kind and the payload of the event of each command. -/
theorem eventOf_eq_some (i : Instr) (s : State) (ev : EventWord) (h : eventOf i s = some ev) :
    (evKind ev = 0x1 ∧ s.frame.ph = true ∧ ∃ c, (i = .charHex c ∨ i = .charBad c) ∧
      evPay ev = 0#8 ++ pairByte c s.frame) ∨
    (evKind ev = 0x2 ∧ evPay ev = 0#9 ++ (effect i s).results.rFlags.extractLsb' 0 7 ∧ i = .charLf) ∨
    (evKind ev = 0x3 ∧ ((∃ r, i = .rdreg r ∧ evPay ev = readReg r s) ∨ ∃ k, i = .rdtbl k ∧ evPay ev = tableEntry k)) := by
  cases i with
  | nop | charCr | crcinit | crcupd b | wrctl swap sev => contradiction
  | charHex c | charBad c =>
    obtain ⟨hph, hev⟩ := Option.ite_none_right_eq_some.mp h
    cases hev
    refine .inl ⟨evKind_eventWord _ _, hph, c, by simp, ?_⟩
    rw [evPay_eventWord, setWidth_byte]
  | charLf =>
    cases h
    refine .inr (.inl ⟨evKind_eventWord _ _, ?_, rfl⟩)
    rw [evPay_eventWord, setWidth_frameFlags]
    rfl
  | rdreg r =>
    cases h
    exact .inr (.inr ⟨evKind_eventWord _ _, .inl ⟨r, rfl, evPay_eventWord _ _⟩⟩)
  | rdtbl k =>
    cases h
    exact .inr (.inr ⟨evKind_eventWord _ _, .inr ⟨k, rfl, evPay_eventWord _ _⟩⟩)

/-! ### The obligation -/

/-- A state with the digit 0 held: the next character completes a pair. -/
def heldZero : State := { State.reset with frame := { FramePath.empty with ph := true } }

/-- Settles O42: a command's events are those of `eventOf`, an illegal word's is its report, and from `heldZero` the pair "00"
and the failing pair "0Z" report the same byte. -/
theorem eventsAreTheirCommands : Obligations.EventsAreTheirCommands := by
  refine ⟨fun s t cw h => ?_, heldZero, effect (.charHex 0x30) heldZero, effect (.charBad 0x5A) heldZero,
    exec_eq_effect _ _, exec_eq_effect _ _, by decide, by decide, by decide⟩
  obtain ⟨i, hd, rfl⟩ | ⟨w, hd, rfl⟩ := ResultRegisters.runWord_inversion cw s t h
  · simp only [hd, Except.ok.injEq, effect_new_event_iff, effect_no_event_iff]
    refine ⟨fun ev hev => ?_, eventOf_eq_none_iff i s⟩
    obtain hbyte | hfend | hrval := eventOf_eq_some i s ev hev
    · exact .inl hbyte
    · exact .inr (.inl hfend)
    · exact .inr (.inr (.inl hrval))
  · rw [raiseIllegal_events]
    refine ⟨fun ev hev => .inr (.inr (.inr ?_)), by simp [hd]⟩
    obtain rfl : eventWord .ill cw = ev := by simpa using hev
    exact ⟨evKind_eventWord _ _, evPay_eventWord _ _, w, hd⟩

end Sys2Proof.Proofs.CommandEvents
end

section
/-! SUPPORT. The commands of the direct CRC unit (spec/40_crc16.md R109, R110): their words, the words beside them that are
illegal, and the corner cases of the update. -/

namespace Sys2Proof.Proofs.DirectCrcCommands

open Sys2Proof.Machine Sys2Proof.Laws Sys2Proof.Proofs.CommandWords

/-! ### Words -/

theorem decode_crcinitWord : decode 0x2000 = .ok .crcinit :=
  decode_commandWord 0x2 0

theorem decode_crcupdWord (b : Byte) : decode (0x3000 + b.setWidth 16) = .ok (.crcupd b) := by
  have hword : 0x3000 + b.setWidth 16 = commandWord 0x3 b := (commandWord_eq_add 0x3 b).symm
  rw [hword, decode_commandWord]
  rfl

/-- Opcode 0x2 has one command number, 0x2000 itself (R82). -/
theorem decode_error_beside_crcinit (cw : Word) (hlow : 0x2001 ≤ cw) (hhigh : cw ≤ 0x2FFF) :
    ∃ w, decode cw = .error w := by
  have hlowNat : 0x2001 ≤ cw.toNat := hlow
  have hhighNat : cw.toNat ≤ 0x2FFF := hhigh
  rw [decode_error_iff, IsCommandNumber]
  omega

/-- Every format marks bits 11:8 zero, so no opcode has a command with one of them set (R71). -/
theorem decode_error_of_bits_11_8_ne_zero (cw : Word) (h : cw.extractLsb' 8 4 ≠ 0) : ∃ w, decode cw = .error w := by
  have hnat : cw.toNat / 256 % 16 ≠ 0 := by
    simpa [← BitVec.toNat_inj, BitVec.extractLsb'_toNat, Nat.shiftRight_eq_div_pow] using h
  rw [decode_error_iff, IsCommandNumber]
  omega

/-! ### The update -/

/-- A byte that left every accumulator unchanged would leave the one that it makes of the initial value unchanged. -/
theorem exists_crcUpd_ne (b : Byte) : ∃ c, crcUpd c b ≠ c :=
  ⟨crcUpd Config.crcStart b, Repetition.crcUpd_crcUpd_start_ne b⟩

/-! ### The obligations -/

/-- Settles O21: the effect of CRCINIT is the write of DCRC, and 0x2000 is the one command number of its opcode. -/
theorem crcinitSetsTheAccumulator : Obligations.CrcinitSetsTheAccumulator :=
  ⟨exec_eq_effect .crcinit, decode_crcinitWord, decode_error_beside_crcinit⟩

/-- Settles O22: the effect of CRCUPD is the write of DCRC by `crcUpd`, which is the table form, and each corner case looks
up one entry. -/
theorem crcupdUpdatesTheAccumulator : Obligations.CrcupdUpdatesTheAccumulator :=
  ⟨fun b => exec_eq_effect (.crcupd b), decode_crcupdWord, fun cw _ => decode_error_of_bits_11_8_ne_zero cw,
    by decide, exists_crcUpd_ne, by decide, by decide, by decide⟩

end Sys2Proof.Proofs.DirectCrcCommands
end

section
/-! SUPPORT. The delay line (spec/41_hex_frame.md R124): one push by the number of bytes the line holds, what a completed pair
pushes, and the law of a sequence of pushes. -/

namespace Sys2Proof.Proofs.DelayLine

open Sys2Proof.Machine Sys2Proof.Laws

/-! ### Counters -/

theorem satInc_eq (v : Word) : satInc v = if v = 0xFFFF then 0xFFFF else v + 1 :=
  ite_not (v = 0xFFFF) _ _

theorem satFull_eq (v : Word) : satFull v = (v == 0xFFFF) := rfl

theorem countByte_eq (f : FramePath) : countByte f =
    { f with bcnt := if f.bcnt = 0xFFFF then 0xFFFF else f.bcnt + 1, fbovf := f.fbovf || f.bcnt == 0xFFFF } := by
  rw [countByte, satInc_eq, satFull_eq]

theorem countError_eq (f : FramePath) : countError f =
    { f with ecnt := if f.ecnt = 0xFFFF then 0xFFFF else f.ecnt + 1, feovf := f.feovf || f.ecnt == 0xFFFF } := by
  rw [countError, satInc_eq, satFull_eq]

/-! ### One push -/

theorem shiftDelay_of_two (b : Byte) (f : FramePath) (h : f.dln = 2) :
    shiftDelay b f = { f with fcrc := crcUpd f.fcrc f.pen, pen := f.ult, ult := b } := by
  simp [shiftDelay, h]

theorem shiftDelay_of_one (b : Byte) (f : FramePath) (h : f.dln = 1) :
    shiftDelay b f = { f with pen := f.ult, ult := b, dln := 2 } := by
  simp [shiftDelay, h]

theorem shiftDelay_of_zero (b : Byte) (f : FramePath) (h : f.dln = 0) :
    shiftDelay b f = { f with ult := b, dln := 1 } := by
  simp [shiftDelay, h]

theorem dln_cases (f : FramePath) (h : f.dln ≠ 3) : f.dln = 0 ∨ f.dln = 1 ∨ f.dln = 2 := by
  revert h
  generalize f.dln = d
  decide +revert

theorem shiftDelay_ult (b : Byte) (f : FramePath) (h : f.dln ≠ 3) : (shiftDelay b f).ult = b := by
  obtain h0 | h1 | h2 := dln_cases f h
  · rw [shiftDelay_of_zero b f h0]
  · rw [shiftDelay_of_one b f h1]
  · rw [shiftDelay_of_two b f h2]

/-- The error counter and the delay line do not read each other. -/
theorem shiftDelay_countError (b : Byte) (f : FramePath) :
    shiftDelay b (countError f) = countError (shiftDelay b f) := by
  rw [shiftDelay, shiftDelay, apply_ite countError, apply_ite countError, apply_ite countError]
  rfl

/-! ### The push of a completed pair -/

theorem completePair_eq (c : Byte) (f : FramePath) : completePair c f =
    { countByte (if pairFails c f then countError (shiftDelay (pairByte c f) f) else shiftDelay (pairByte c f) f) with
      ph := false, hn := 0, hbad := false } := by
  rw [completePair, pushByte]
  split_ifs
  · rw [shiftDelay_countError]
  · rfl

theorem completePair_fcrc (c : Byte) (f : FramePath) : (completePair c f).fcrc = (shiftDelay (pairByte c f) f).fcrc := by
  rw [completePair_eq]
  split_ifs <;> rfl

theorem completePair_dln (c : Byte) (f : FramePath) : (completePair c f).dln = (shiftDelay (pairByte c f) f).dln := by
  rw [completePair_eq]
  split_ifs <;> rfl

theorem completePair_ult (c : Byte) (f : FramePath) : (completePair c f).ult = (shiftDelay (pairByte c f) f).ult := by
  rw [completePair_eq]
  split_ifs <;> rfl

theorem hexVal_eq_none (c : Byte) (h : isHex c = false) : hexVal c = none := by
  simpa [isHex_eq_isSome] using h

/-- The pair fails when either of its characters is no hex digit (R126). -/
theorem pairByte_of_failing (c : Byte) (f : FramePath) (h : f.hbad = true ∨ isHex c = false) : pairByte c f = 0x00 := by
  obtain hheld | hbad := h
  · rw [pairByte, hheld]
    rfl
  · rw [pairByte, hexVal_eq_none c hbad]
    cases f.hbad <;> rfl

/-! ### A sequence of pushes -/

/-- The frame path's delay line after these bytes: all but the last two have entered FCRC, and the line holds these. -/
inductive Delays : List Byte → FramePath → Prop
  | empty (f : FramePath) : f.dln = 0 → f.fcrc = Config.crcStart → Delays [] f
  | one (f : FramePath) : f.dln = 1 → f.fcrc = Config.crcStart → Delays [f.ult] f
  | full (u : List Byte) (f : FramePath) : f.dln = 2 → f.fcrc = crc16 u → Delays (u ++ [f.pen, f.ult]) f

theorem delays_countByte (bs : List Byte) (f : FramePath) (h : Delays bs f) : Delays bs (countByte f) := by
  cases h with
  | empty _ hdln hfcrc => exact .empty _ hdln hfcrc
  | one _ hdln hfcrc => exact .one (countByte f) hdln hfcrc
  | full u _ hdln hfcrc => exact .full u (countByte f) hdln hfcrc

theorem delays_shiftDelay (bs : List Byte) (b : Byte) (f : FramePath) (h : Delays bs f) :
    Delays (bs ++ [b]) (shiftDelay b f) := by
  cases h with
  | empty _ hdln hfcrc =>
    rw [shiftDelay_of_zero b f hdln]
    exact .one { f with ult := b, dln := 1 } rfl hfcrc
  | one _ hdln hfcrc =>
    rw [shiftDelay_of_one b f hdln]
    exact .full [] { f with pen := f.ult, ult := b, dln := 2 } rfl hfcrc
  | full u _ hdln hfcrc =>
    have hcrc : crcUpd f.fcrc f.pen = crc16 (u ++ [f.pen]) := by rw [crc16_snoc, hfcrc]
    have hline : u ++ [f.pen, f.ult] ++ [b] = u ++ [f.pen] ++ [f.ult, b] := by simp
    rw [shiftDelay_of_two b f hdln, hline]
    exact .full (u ++ [f.pen]) { f with fcrc := crcUpd f.fcrc f.pen, pen := f.ult, ult := b } hdln hcrc

theorem delays_pushes (bs : List Byte) : Delays bs (bs.foldl (fun f b => pushByte b f) FramePath.empty) := by
  induction bs using List.reverseRecOn with
  | nil => exact .empty _ rfl rfl
  | append_singleton bs b ih =>
    rw [List.foldl_append]
    exact delays_countByte _ _ (delays_shiftDelay bs b _ ih)

/-- The same in terms of the number of bytes, as R124 says it. -/
theorem delays_by_length (bs : List Byte) (f : FramePath) (h : Delays bs f) :
    f.fcrc = crc16 (bs.take (bs.length - 2)) ∧ f.dln.toNat = min bs.length 2 ∧
    (bs.length = 1 → bs = [f.ult]) ∧ (2 ≤ bs.length → bs.drop (bs.length - 2) = [f.pen, f.ult]) := by
  cases h with
  | empty _ hdln hfcrc => simp [hdln, hfcrc]
  | one _ hdln hfcrc => simp [hdln, hfcrc]
  | full u _ hdln hfcrc => simp [hdln, hfcrc]

/-! ### The obligation -/

/-- Settles O26: a push by the three cases of the delay line, a sequence of pushes by `Delays`, which each push keeps, and the
push of a completed pair. -/
theorem pushByteDelaysTheCrc : Obligations.PushByteDelaysTheCrc := by
  refine ⟨fun b f => ⟨fun h => ?_, fun h => ?_, fun h => ?_⟩, fun bs => delays_by_length bs _ (delays_pushes bs),
    fun c f hdln => ⟨?_, pairByte_of_failing c f⟩⟩
  · rw [pushByte, shiftDelay_of_two b f h, countByte_eq]
  · rw [pushByte, shiftDelay_of_one b f h, countByte_eq]
  · rw [pushByte, shiftDelay_of_zero b f h, countByte_eq]
  · rw [completePair_ult, shiftDelay_ult _ f hdln]

end Sys2Proof.Proofs.DelayLine
end

section
/-! SUPPORT. The data characters and the dropped carriage return (spec/41_hex_frame.md R127 to R129, R139): a character is held,
or completes a good or a failing pair, and what moves the frame path. -/

namespace Sys2Proof.Proofs.FramePathMoves

open Sys2Proof.Machine Sys2Proof.Laws Sys2Proof.Proofs.DelayLine

/-! ### The characters of the two classes -/

theorem exists_hexVal_of_wf (c : Byte) (h : (Instr.charHex c).wf = true) : ∃ v, hexVal c = some v := by
  have hclass : charClass c = .hex := of_decide_eq_true h
  rw [← Option.isSome_iff_exists, ← isHex_eq_isSome]
  exact (isHex_iff_class c).mp hclass

theorem isHex_eq_false_of_wf (c : Byte) (h : (Instr.charBad c).wf = true) : isHex c = false := by
  have hclass : charClass c = .bad := of_decide_eq_true h
  rw [← Bool.not_eq_true, ← isHex_iff_class, hclass]
  decide

/-! ### A character is held -/

theorem hold_of_hexVal (c : Byte) (v : Nibble) (f : FramePath) (h : hexVal c = some v) :
    hold c f = { f with ph := true, hn := v, hbad := false } := by
  simp only [hold, h]

theorem hold_of_bad (c : Byte) (f : FramePath) (h : isHex c = false) :
    hold c f = { f with ph := true, hn := 0, hbad := true } := by
  simp only [hold, hexVal_eq_none c h]

theorem dataChar_of_free (c : Byte) (s : State) (h : s.frame.ph = false) :
    dataChar c s = { s with frame := hold c s.frame } := by
  simp [dataChar, h]

/-! ### A character completes a pair -/

theorem eventWord_setWidth (k : EventKind) (b : Byte) : eventWord k (b.setWidth 16) = kindCode k ++ 0#8 ++ b := by
  rw [eventWord, CommandEvents.setWidth_byte, BitVec.append_assoc]
  rfl

theorem dataChar_of_held (c : Byte) (s : State) (h : s.frame.ph = true) : dataChar c s =
    { s with frame := completePair c s.frame, events := s.events ++ [0x1#4 ++ 0#8 ++ pairByte c s.frame] } := by
  rw [dataChar, if_pos h, emit, eventWord_setWidth]
  rfl

theorem dataChar_of_good (c : Byte) (v : Nibble) (s : State) (hph : s.frame.ph = true) (hheld : s.frame.hbad = false)
    (hv : hexVal c = some v) : dataChar c s = { s with
      frame := { pushByte (s.frame.hn ++ v) s.frame with ph := false, hn := 0, hbad := false }
      events := s.events ++ [0x1#4 ++ 0#8 ++ s.frame.hn ++ v] } := by
  have hbyte : pairByte c s.frame = s.frame.hn ++ v := by simp only [pairByte, hheld, hv]
  have hgood : pairFails c s.frame = false := by simp [pairFails, hheld, isHex_eq_isSome, hv]
  have hevent : 0x1#4 ++ 0#8 ++ s.frame.hn ++ v = 0x1#4 ++ 0#8 ++ (s.frame.hn ++ v) := BitVec.append_assoc
  rw [dataChar_of_held c s hph, completePair, hbyte, hgood, hevent]
  rfl

theorem dataChar_of_failing (c : Byte) (s : State) (hph : s.frame.ph = true)
    (h : s.frame.hbad = true ∨ isHex c = false) : dataChar c s = { s with
      frame := { pushByte 0x00 { s.frame with
          ecnt := if s.frame.ecnt = 0xFFFF then 0xFFFF else s.frame.ecnt + 1
          feovf := s.frame.feovf || s.frame.ecnt == 0xFFFF } with ph := false, hn := 0, hbad := false }
      events := s.events ++ [0x10000] } := by
  have hfails : pairFails c s.frame = true := by simpa [pairFails] using h
  rw [dataChar_of_held c s hph, completePair, pairByte_of_failing c s.frame h, if_pos hfails, countError_eq]
  rfl

/-! ### The moves of PH, DLN and FCRC -/

theorem dataChar_moves_of_free (c : Byte) (s : State) (h : s.frame.ph = false) :
    (dataChar c s).frame.ph = true ∧ (dataChar c s).events = s.events ∧
      (dataChar c s).frame.dln = s.frame.dln ∧ (dataChar c s).frame.fcrc = s.frame.fcrc := by
  simp [h]

theorem dataChar_moves_of_held (c : Byte) (s : State) (h : s.frame.ph = true) :
    (dataChar c s).frame.ph = false ∧ (∃ p, (dataChar c s).events = s.events ++ [eventWord .byte p]) ∧
      (s.frame.dln = 0 → (dataChar c s).frame.dln = 1 ∧ (dataChar c s).frame.fcrc = s.frame.fcrc) ∧
      (s.frame.dln = 1 → (dataChar c s).frame.dln = 2 ∧ (dataChar c s).frame.fcrc = s.frame.fcrc) ∧
      (s.frame.dln = 2 → (dataChar c s).frame.dln = 2 ∧
        (dataChar c s).frame.fcrc = crcUpd s.frame.fcrc s.frame.pen) := by
  rw [dataChar_frame, dataChar_events, if_pos h, if_pos h, completePair_dln, completePair_fcrc]
  refine ⟨rfl, ⟨_, rfl⟩, fun hdln => ?_, fun hdln => ?_, fun hdln => ?_⟩
  · rw [shiftDelay_of_zero _ _ hdln]
    exact ⟨rfl, rfl⟩
  · rw [shiftDelay_of_one _ _ hdln]
    exact ⟨rfl, rfl⟩
  · rw [shiftDelay_of_two _ _ hdln]
    exact ⟨hdln, rfl⟩

/-- A character left over at the terminator is ODD (R131). -/
theorem frameFlags_odd (sev swap : Bool) (f : FramePath) : (frameFlags sev swap f).getLsbD 3 = f.ph := by
  obtain ⟨-, -, -, hodd, -⟩ := packFlags_bits (errorsOverflow f) f.fbovf (finalErrors f != 0) f.ph
    (accepted sev swap f) (crcMatches swap f) (checkable f)
  exact hodd

/-! ### The words of other opcodes -/

/-- Every row fixes the opcode field (R71). -/
theorem opField_of_hits (r : Row) (cw : Word) (hmem : r ∈ opcodeTable) (hhit : r.hits cw = true) :
    opField cw = opField r.pattern := by
  have hmask : ∀ r ∈ opcodeTable, opField r.mask = BitVec.allOnes 4 := by decide
  have hand : opField (cw &&& r.mask) = opField cw &&& opField r.mask := BitVec.extractLsb'_and
  rw [hmask r hmem, BitVec.and_allOnes] at hand
  rw [← hand, eq_of_beq hhit]

theorem effect_frame_of_operation (op : Op) (cw : Word) (s : State)
    (h : op ≠ .charLf ∧ op ≠ .charHex ∧ op ≠ .charBad) : (effect (withOperands op cw) s).frame = s.frame := by
  obtain ⟨hlf, hhex, hbad⟩ := h
  cases op with
  | charLf | charHex | charBad => contradiction
  | nop | charCr | crcinit | crcupd | rdreg | wrctl | rdtbl => rfl

/-- The rows of the opcodes other than CHAR's have no CHAR operation. -/
theorem frame_of_other_opcode (s t : State) (cw : Word) (hop : opField cw ≠ 0x1) (h : runWord cw s = .next t) :
    t.frame = s.frame := by
  have hrows : ∀ r ∈ opcodeTable, opField r.pattern ≠ 0x1 → r.op ≠ .charLf ∧ r.op ≠ .charHex ∧ r.op ≠ .charBad := by
    decide
  obtain ⟨i, hd, rfl⟩ | ⟨w, -, rfl⟩ := ResultRegisters.runWord_inversion cw s t h
  · obtain ⟨r, hmem, hhit, rfl⟩ := CommandWords.row_of_decode cw i hd
    rw [opField_of_hits r cw hmem hhit] at hop
    exact effect_frame_of_operation r.op cw s (hrows r hmem hop)
  · exact raiseIllegal_frame s cw

/-! ### The obligations -/

/-- Settles O27: a hex digit has a value, which is held, or joins the held nibble, or is lost with a bad first character. -/
theorem charHexHoldsOrCompletes : Obligations.CharHexHoldsOrCompletes := by
  intro s c hwf
  obtain ⟨v, hv⟩ := exists_hexVal_of_wf c hwf
  rw [exec_eq_effect, effect]
  refine ⟨v, hv, fun hfree => ?_, fun hph hgood => ?_, fun hph hbad => ?_⟩
  · rw [dataChar_of_free c s hfree, hold_of_hexVal c v s.frame hv]
  · rw [dataChar_of_good c v s hph hgood hv]
  · rw [dataChar_of_failing c s hph (.inl hbad)]

/-- Settles O28: the character is no hex digit, so it is held as bad, or its pair fails whatever is held. -/
theorem charBadHoldsOrFailsThePair : Obligations.CharBadHoldsOrFailsThePair := by
  intro s c hwf
  have hbad := isHex_eq_false_of_wf c hwf
  rw [exec_eq_effect, effect]
  refine ⟨fun hfree => ?_, fun hph => ?_⟩
  · rw [dataChar_of_free c s hfree, hold_of_bad c s.frame hbad]
  · rw [dataChar_of_failing c s hph (.inr hbad)]

/-- Settles O29: 0x100D is the word of carriage return, and the effect of its command is the state before. -/
theorem charCrIsDropped : Obligations.CharCrIsDropped :=
  ⟨CommandWords.decode_charWord 0x0D, exec_eq_effect .charCr⟩

/-- Settles O32: the moves of a data character by what is held, the two fixed characters, and the words of other opcodes. -/
theorem framePathMovesAsTheTablesSay : Obligations.FramePathMovesAsTheTablesSay := by
  refine ⟨fun s t i c hi _ h => ?_, fun s t h => ?_, fun s t h => ?_, fun s cw hop => ?_⟩
  · obtain rfl := (exec_next_iff i s t).mp h
    obtain rfl | rfl := hi <;> exact ⟨dataChar_moves_of_free c s, dataChar_moves_of_held c s⟩
  · exact (exec_next_iff .charCr s t).mp h
  · obtain rfl := (exec_next_iff .charLf s t).mp h
    refine ⟨endFrame_frame s, _, endFrame_events s, ?_⟩
    rw [BitVec.getLsbD_setWidth, frameFlags_odd]
    rfl
  · obtain ⟨t, h⟩ := NoOperations.runWord_total cw s
    exact ⟨t, h, frame_of_other_opcode s t cw hop h⟩

end Sys2Proof.Proofs.FramePathMoves
end

section
/-! SUPPORT. The end of a frame (spec/41_hex_frame.md R130 to R135): the local values of the terminator's pseudocode. -/

namespace Sys2Proof.Proofs.FrameEnd

open Sys2Proof.Machine Sys2Proof.Laws Sys2Proof.Proofs.DelayLine Sys2Proof.Proofs.FramePathMoves

/-! ### Local values -/

theorem finalErrors_eq (f : FramePath) :
    finalErrors f = if f.ph then (if f.ecnt = 0xFFFF then 0xFFFF else f.ecnt + 1) else f.ecnt := by
  rw [finalErrors, satInc_eq]

theorem carriedCrc_eq (swap : Bool) (f : FramePath) : carriedCrc swap f =
    if (f.dln == 2) = false then 0x0000 else if swap = false then f.ult ++ f.pen else f.pen ++ f.ult := by
  rw [carriedCrc, checkable]
  cases f.dln == 2 <;> cases swap <;> rfl

theorem accepted_eq (sev swap : Bool) (f : FramePath) :
    accepted sev swap f = (checkable f && (crcMatches swap f || sev == false)) := by
  rw [accepted]
  cases sev <;> rfl

/-! ### The obligation -/

/-- Settles O30: the effect of CHAR.LF is `endFrame`, whose results and event are made of the local values. -/
theorem charLfLatchesReportsAndClears : Obligations.CharLfLatchesReportsAndClears := by
  refine ⟨CommandWords.decode_charWord 0x0A, fun s => ?_⟩
  rw [exec_eq_effect, effect, endFrame, emit, eventWord_setWidth]
  simp only [frameResults, frameFlags, packFlags, accepted_eq, crcMatches, errorsOverflow, finalErrors_eq, carriedCrc_eq,
    checkable, satFull_eq]
  rfl

end Sys2Proof.Proofs.FrameEnd
end

section
/-! SUPPORT. The register read (spec/42_control.md R151, R152): the event of the value read, the words of RDREG and the
words above them that are illegal. -/

namespace Sys2Proof.Proofs.RegisterReads

open Sys2Proof.Machine Sys2Proof.Laws Sys2Proof.Proofs.CommandWords

/-! ### The value read -/

/-- R_FLAGS is eight bits, read with a zero byte above them (R38). -/
theorem readReg_rFlags (s : State) : readReg .rFlags s = 0#8 ++ s.results.rFlags :=
  CommandEvents.setWidth_byte s.results.rFlags

theorem exec_rdreg (r : Reg) (s : State) :
    exec (.rdreg r) s = .next { s with events := s.events ++ [0x3#4 ++ readReg r s] } :=
  exec_eq_effect (.rdreg r) s

/-! ### Words -/

theorem decode_encode_rdreg (r : Reg) : decode (encode (.rdreg r)) = .ok (.rdreg r) := by
  rw [encode, decode_commandWord]
  cases r <;> rfl

/-- The registers in the order of their indices have the words from 0x4000 on (R151). -/
theorem rdregWords_eq : [0x4000#16, 0x4001, 0x4002, 0x4003, 0x4004, 0x4005, 0x4006, 0x4007] =
    [Reg.ctrl, .status, .dcrc, .rFlags, .rCrcc, .rCrcr, .rBcnt, .rEcnt].map fun r => encode (.rdreg r) := by
  decide

/-- Opcode 0x4 has eight command numbers, one for each register (R82). -/
theorem decode_error_above_rdreg (cw : Word) (hlow : 0x4008 ≤ cw) (hhigh : cw ≤ 0x4FFF) :
    ∃ w, decode cw = .error w := by
  have hlowNat : 0x4008 ≤ cw.toNat := hlow
  have hhighNat : cw.toNat ≤ 0x4FFF := hhigh
  rw [decode_error_iff, IsCommandNumber]
  omega

/-! ### The obligation -/

/-- Settles O34: the effect of RDREG is the event of the value read, each of the eight words encodes its register, and
no other number of the opcode is a command's. -/
theorem rdregReportsTheRegister : Obligations.RdregReportsTheRegister := by
  refine ⟨fun r s => ?_, ?_, decode_error_above_rdreg⟩
  · have hread := exec_rdreg r s
    cases r with
    | rFlags =>
      rw [readReg_rFlags] at hread
      exact hread
    | ctrl | status | dcrc | rCrcc | rCrcr | rBcnt | rEcnt => exact hread
  · rw [rdregWords_eq, List.map_map]
    exact List.map_congr_left fun r _ => decode_encode_rdreg r

end Sys2Proof.Proofs.RegisterReads
end

section
/-! SUPPORT. The illegal-word report and the sticky bit (spec/60_exceptions.md R173, R174): a word without a row is only
reported, no command writes ILL, and only the read of STATUS looks at it. -/

namespace Sys2Proof.Proofs.IllegalBit

open Sys2Proof.Machine Sys2Proof.Laws

/-! ### What writes ILL -/

theorem effect_ill (i : Instr) (s : State) : (effect i s).ill = s.ill := by
  cases i with
  | charHex c | charBad c => exact dataChar_ill s c
  | charLf => exact endFrame_ill s
  | rdreg r => exact emit_ill s .rval _
  | rdtbl k => exact emit_ill s .rval _
  | wrctl swap sev => exact writeCtrl_ill s swap sev
  | nop | charCr | crcinit | crcupd b => rfl

theorem runWord_keeps_ill (cw : Word) (s t : State) (hill : s.ill = true) (h : runWord cw s = .next t) :
    t.ill = true := by
  obtain ⟨i, -, rfl⟩ | ⟨w, -, rfl⟩ := ResultRegisters.runWord_inversion cw s t h
  · exact (effect_ill i s).trans hill
  · exact raiseIllegal_ill s cw

/-! ### What looks at ILL -/

theorem readReg_setIll (r : Reg) (s : State) (b : Bool) (h : r ≠ .status) :
    readReg r { s with ill := b } = readReg r s := by
  cases r with
  | status => contradiction
  | ctrl | dcrc | rFlags | rCrcc | rCrcr | rBcnt | rEcnt => rfl

/-- Whether a data character is held or completes its pair is the frame path's own matter (R127, R128). -/
theorem dataChar_setIll (c : Byte) (s : State) (b : Bool) :
    dataChar c { s with ill := b } = { dataChar c s with ill := b } := by
  unfold dataChar
  split <;> rfl

theorem effect_setIll (i : Instr) (s : State) (b : Bool) (h : i ≠ .rdreg .status) :
    effect i { s with ill := b } = { effect i s with ill := b } := by
  cases i with
  | charHex c | charBad c => exact dataChar_setIll c s b
  | rdreg r =>
    have hread := readReg_setIll r s b fun hr => h (congrArg Instr.rdreg hr)
    rw [effect, hread]
    rfl
  | nop | charLf | charCr | crcinit | crcupd _ | wrctl _ _ | rdtbl _ => rfl

/-! ### The obligations -/

/-- Settles O39: a command keeps ILL and the illegal-word report sets it, and every command but the read of STATUS commutes
with setting ILL to any value. -/
theorem illegalBitIsStickyAndInert : Obligations.IllegalBitIsStickyAndInert := by
  refine ⟨runWord_keeps_ill, fun i s t b hi ht => ?_⟩
  obtain rfl := (exec_next_iff i s t).mp ht
  rw [exec_eq_effect, effect_setIll i s b hi]

/-- Settles O12: a word that no row hits decodes to an error, and what runs is `raiseIllegal`, which is that update. -/
theorem illegalWordIsOnlyReported : Obligations.IllegalWordIsOnlyReported := by
  intro s cw hrow
  obtain ⟨w, hw⟩ := (RowOrder.decode_error_iff_no_row cw).mpr hrow
  exact runWord_illegal cw w s hw

end Sys2Proof.Proofs.IllegalBit
end

section
/-! SUPPORT. When CTRL is looked at (spec/70_reset_and_hazards.md R199): every command but the terminator, the read of
CTRL and the write of CTRL keeps CTRL, and the rest of its next state does not depend on CTRL. -/

namespace Sys2Proof.Proofs.CtrlSampling

open Sys2Proof.Machine Sys2Proof.Laws

/-! ### What looks at CTRL -/

theorem readReg_writeCtrl (r : Reg) (swap sev : Bool) (s : State) (h : r ≠ .ctrl) :
    readReg r (writeCtrl swap sev s) = readReg r s := by
  cases r with
  | ctrl => contradiction
  | status | dcrc | rFlags | rCrcc | rCrcr | rBcnt | rEcnt => rfl

/-- Pairing and the delay line look at the frame path alone (R127, R128). -/
theorem dataChar_writeCtrl (c : Byte) (swap sev : Bool) (s : State) :
    dataChar c (writeCtrl swap sev s) = writeCtrl swap sev (dataChar c s) := by
  unfold dataChar
  rw [writeCtrl_frame]
  split <;> rfl

theorem effect_writeCtrl (i : Instr) (swap sev : Bool) (s : State) (hlf : i ≠ .charLf) (hread : i ≠ .rdreg .ctrl)
    (hwrite : ∀ a b, i ≠ .wrctl a b) : effect i (writeCtrl swap sev s) = writeCtrl swap sev (effect i s) := by
  cases i with
  | charLf => contradiction
  | wrctl a b => exact absurd rfl (hwrite a b)
  | charHex c | charBad c => exact dataChar_writeCtrl c swap sev s
  | rdreg r =>
    have hvalue := readReg_writeCtrl r swap sev s fun hr => hread (congrArg Instr.rdreg hr)
    rw [effect, hvalue]
    rfl
  | nop | charCr | crcinit | crcupd _ | rdtbl _ => rfl

/-! ### A write of CTRL before the terminator -/

theorem endFrame_writeCtrl_results (swap sev : Bool) (s : State) :
    (endFrame (writeCtrl swap sev s)).results = frameResults sev swap s.frame := by
  rw [endFrame_results, writeCtrl_sev, writeCtrl_swap, writeCtrl_frame]

/-! ### The obligation -/

/-- Settles O40: every command but the three named commutes with a write of CTRL; the terminator after such a write takes
its SWAP and SEV; a write after the terminator keeps the results. -/
theorem ctrlIsSampledAtTheTerminator : Obligations.CtrlIsSampledAtTheTerminator := by
  refine ⟨fun i s t swap sev hlf hread hwrite ht => ?_, fun s u t swap sev hu ht => ?_, fun s u t swap sev _ ht => ?_⟩
  · obtain rfl := (exec_next_iff i s t).mp ht
    exact (exec_next_iff i _ _).mpr (effect_writeCtrl i swap sev s hlf hread hwrite).symm
  · obtain rfl := (exec_next_iff _ s u).mp hu
    obtain rfl := (exec_next_iff _ _ t).mp ht
    exact endFrame_writeCtrl_results swap sev s
  · obtain rfl := (exec_next_iff _ u t).mp ht
    exact writeCtrl_results u swap sev

end Sys2Proof.Proofs.CtrlSampling
end

section
/-! SUPPORT. The state after reset (spec/70_reset_and_hazards.md R191): the value of each field and of each register. -/

namespace Sys2Proof.Proofs.ResetValues

open Sys2Proof.Machine

/-- Of the registers only DCRC, which starts at the CRC's initial value, reads as something else than zero. -/
theorem readReg_reset (r : Reg) : readReg r State.reset = if r = .dcrc then 0xFFFF else 0x0000 := by
  cases r <;> rfl

/-- Settles O15: `State.reset` is written with these values, and the registers are read from it. -/
theorem resetValuesAreTheSpecs : Obligations.ResetValuesAreTheSpecs := by
  refine ⟨?framePath, ?dcrcCtrlAndIll, ?results, readReg_reset⟩
  case framePath => decide
  case dcrcCtrlAndIll => decide
  case results => decide

end Sys2Proof.Proofs.ResetValues
end

section
/-! SUPPORT. The decoder and the encoder as inverses of each other (spec/30_encoding.md R76, R80, R86), and what a decoded word
says about its command. -/

namespace Sys2Proof.Proofs.WordRoundTrip

open Sys2Proof.Machine Sys2Proof.Laws Sys2Proof.Proofs.CommandWords Sys2Proof.Proofs.Assembling

/-! ### Words of commands decode to them -/

theorem charInstr_of_wf_charHex (c : Byte) (h : (Instr.charHex c).wf = true) : charInstr c = .charHex c := by
  have hclass : charClass c = .hex := of_decide_eq_true h
  rw [charInstr, hclass]

theorem charInstr_of_wf_charBad (c : Byte) (h : (Instr.charBad c).wf = true) : charInstr c = .charBad c := by
  have hclass : charClass c = .bad := of_decide_eq_true h
  rw [charInstr, hclass]

theorem decode_encode (i : Instr) (h : i.wf = true) : decode (encode i) = .ok i := by
  cases i with
  | charHex c =>
    rw [encode, decode_commandWord, ← charInstr_of_wf_charHex c h]
    rfl
  | charBad c =>
    rw [encode, decode_commandWord, ← charInstr_of_wf_charBad c h]
    rfl
  | rdreg r => exact RegisterReads.decode_encode_rdreg r
  | wrctl swap sev =>
    rw [encode, decode_commandWord]
    cases swap <;> cases sev <;> rfl
  | nop | charLf | charCr | crcinit | crcupd b | rdtbl k =>
    rw [encode, decode_commandWord]
    rfl

/-! ### Decoded words encode back -/

theorem charInstr_wf (c : Byte) : (charInstr c).wf = true := by
  unfold charInstr
  split
  · rfl
  · rfl
  · next h => exact decide_eq_true h
  · next h => exact decide_eq_true h

theorem regOperand_eq (lo : Byte) (h : lo < 8#8) : (regIndex (regOfIndex (lo.setWidth 3))).setWidth 8 = lo := by
  rw [regIndex_regOfIndex]
  bv_omega

theorem ctrlOperand_eq (lo : Byte) (h : lo < 4#8) :
    0#6 ++ BitVec.ofBool (lo.getLsbD 1) ++ BitVec.ofBool (lo.getLsbD 0) = lo := by
  have hbits := ctrlBits_eq (lo.setWidth 2)
  simp only [BitVec.getLsbD_setWidth, Nat.reduceLT, decide_true, Bool.true_and] at hbits
  rw [hbits]
  bv_omega

/-- A command that the decoder by halves answers is well formed, and its word has these halves. -/
theorem encode_of_decodeHalves (hi lo : Byte) (i : Instr) (h : decodeHalves hi lo = .ok i) :
    i.wf = true ∧ encode i = hi ++ lo := by
  unfold decodeHalves at h
  split_ifs at h with h0 hlo h1 h2 hlo h3 h4 hlo h5 hlo h6 <;> cases h
  · subst h0 hlo; exact ⟨rfl, rfl⟩
  · subst h1
    refine ⟨charInstr_wf lo, ?_⟩
    rw [encode_charInstr]
    exact (commandWord_eq_add 0x1 lo).symm
  · subst h2 hlo; exact ⟨rfl, rfl⟩
  · subst h3; exact ⟨rfl, rfl⟩
  · subst h4
    rw [encode, regOperand_eq lo hlo]
    exact ⟨rfl, rfl⟩
  · subst h5
    rw [encode, ctrlOperand_eq lo hlo]
    exact ⟨rfl, rfl⟩
  · subst h6; exact ⟨rfl, rfl⟩

theorem word_eq_append_halves (cw : Word) : cw.extractLsb' 8 8 ++ cw.extractLsb' 0 8 = cw := by
  rw [word_eq_iff_halves]
  exact ⟨BitVec.extractLsb'_append_eq_left, BitVec.extractLsb'_append_eq_right⟩

theorem encode_of_decode (cw : Word) (i : Instr) (h : decode cw = .ok i) : i.wf = true ∧ encode i = cw := by
  rw [decode_eq_halves] at h
  obtain ⟨hwf, hword⟩ := encode_of_decodeHalves _ _ i h
  exact ⟨hwf, hword.trans (word_eq_append_halves cw)⟩

/-- A word that decodes carries the opcode of its command (R80). -/
theorem opField_of_decode (cw : Word) (i : Instr) (h : decode cw = .ok i) : opField cw = EncodedOpcode.opcode i := by
  obtain ⟨-, rfl⟩ := encode_of_decode cw i h
  cases i <;> exact EncodedOpcode.opField_commandWord _ _

/-! ### The obligations -/

/-- Settles O1: the word of a command has the command's opcode and operand as its halves, by which it decodes. -/
theorem decodeOfEncodeGivesTheCommandBack : Obligations.DecodeOfEncodeGivesTheCommandBack :=
  decode_encode

/-- Settles O2: each case of the decoder by halves answers a command whose word has these halves. -/
theorem encodeOfDecodeGivesTheWordBack : Obligations.EncodeOfDecodeGivesTheWordBack :=
  encode_of_decode

/-- Settles O3: each printed word is the word of its command, which decodes to it. -/
theorem printedWordsDecodeAsTheSpecSays : Obligations.PrintedWordsDecodeAsTheSpecSays :=
  ⟨decode_encode .nop rfl, decode_encode .charLf rfl, decode_encode .charCr rfl, decode_encode (.charHex 0x41) rfl,
    decode_encode (.charBad 0x5A) rfl, decode_encode .crcinit rfl, decode_encode (.crcupd 0xA5) rfl,
    decode_encode (.rdreg .rCrcc) rfl, decode_encode (.wrctl true false) rfl, decode_encode (.rdtbl 0x80) rfl⟩

end Sys2Proof.Proofs.WordRoundTrip
end

section
/-! SUPPORT. What each command makes of the frame path, field by field, and the invariants of the frame path
(spec/10_state.md R25), which a data character and the terminator keep. -/

namespace Sys2Proof.Proofs.FrameInvariant

open Sys2Proof.Machine Sys2Proof.Safety Sys2Proof.Laws Sys2Proof.Proofs.DelayLine

/-! ### The frame path after a command -/

/-- A data character is held or completes its pair (R127, R128). -/
def dataMove (c : Byte) (f : FramePath) : FramePath := if f.ph then completePair c f else hold c f

/-- What a command makes of the frame path (R139). -/
def frameMove (i : Instr) (f : FramePath) : FramePath :=
  match i with
  | .charLf => FramePath.empty
  | .charHex c | .charBad c => dataMove c f
  | .nop | .charCr | .crcinit | .crcupd _ | .rdreg _ | .wrctl _ _ | .rdtbl _ => f

theorem effect_frame (i : Instr) (s : State) : (effect i s).frame = frameMove i s.frame := by
  cases i with
  | charHex c | charBad c => exact dataChar_frame s c
  | nop | charLf | charCr | crcinit | crcupd b | rdreg r | wrctl swap sev | rdtbl k => rfl

/-! ### The fields of a completed pair -/

theorem completePair_pen (c : Byte) (f : FramePath) : (completePair c f).pen = (shiftDelay (pairByte c f) f).pen := by
  rw [completePair_eq]
  split_ifs <;> rfl

theorem completePair_bcnt (c : Byte) (f : FramePath) : (completePair c f).bcnt = satInc f.bcnt := by
  rw [completePair_eq]
  split_ifs <;> simp

theorem completePair_fbovf (c : Byte) (f : FramePath) : (completePair c f).fbovf = (f.fbovf || satFull f.bcnt) := by
  rw [completePair_eq]
  split_ifs <;> simp

theorem completePair_ecnt (c : Byte) (f : FramePath) :
    (completePair c f).ecnt = if pairFails c f then satInc f.ecnt else f.ecnt := by
  rw [completePair_eq]
  split_ifs <;> simp

theorem completePair_feovf (c : Byte) (f : FramePath) :
    (completePair c f).feovf = (f.feovf || (pairFails c f && satFull f.ecnt)) := by
  rw [completePair_eq]
  split_ifs with h <;> simp [h]

/-! ### Saturated counters -/

/-- A counter whose overflow is recorded, now or before, stays at its maximum. -/
theorem satInc_of_overflow (v : Word) (flag : Bool) (hflag : flag = true → v = 0xFFFF)
    (h : (flag || satFull v) = true) : satInc v = 0xFFFF := by
  have hfull : v = 0xFFFF := by
    obtain h | h := Bool.or_eq_true_iff.mp h
    · exact hflag h
    · exact eq_of_beq h
  rw [hfull]
  rfl

theorem satInc_toNat_le (v : Word) : (satInc v).toNat ≤ v.toNat + 1 := by
  rw [satInc_toNat]
  omega

theorem toNat_le_satInc (v : Word) : v.toNat ≤ (satInc v).toNat := by
  have := v.isLt
  rw [satInc_toNat]
  omega

theorem satInc_toNat_of_not_full (v : Word) (h : satFull v = false) : (satInc v).toNat = v.toNat + 1 := by
  have hne : v.toNat ≠ 0xFFFF := fun hv => by simp [(satFull_iff v).mpr hv] at h
  have := v.isLt
  rw [satInc_toNat]
  omega

/-! ### The invariants -/

theorem frameInv_empty : FrameInv FramePath.empty := by
  constructor <;> decide

theorem frameInv_hold (c : Byte) (f : FramePath) (h : FrameInv f) : FrameInv (hold c f) where
  notHeld hph := by simp at hph
  badHeld hbad := by
    rw [hold_hbad, Option.isNone_iff_eq_none] at hbad
    rw [hold_hn, hbad]
    rfl
  delayLegal := by simpa using h.delayLegal
  delayEmpty := by simpa using h.delayEmpty
  delayOne := by simpa using h.delayOne
  delayFull := by simpa using h.delayFull
  bytesFull := by simpa using h.bytesFull
  errorsFull := by simpa using h.errorsFull
  errorsBelow := by simpa using h.errorsBelow

/-- The pushed byte is the only one in the delay line, or the line is full. -/
theorem completePair_delay (c : Byte) (f : FramePath) (h : FrameInv f) :
    ((completePair c f).dln = 1 ∧ (completePair c f).pen = 0 ∧ (completePair c f).bcnt = 1 ∧
      (completePair c f).fcrc = 0xFFFF) ∨
    ((completePair c f).dln = 2 ∧ 2 ≤ (completePair c f).bcnt.toNat) := by
  rw [completePair_dln, completePair_pen, completePair_bcnt, completePair_fcrc]
  obtain h0 | h1 | h2 := dln_cases f h.delayLegal
  · obtain ⟨hpen, -, hbcnt, hfcrc⟩ := h.delayEmpty h0
    rw [shiftDelay_of_zero _ _ h0, hbcnt]
    exact .inl ⟨rfl, hpen, rfl, hfcrc⟩
  · obtain ⟨-, hbcnt, -⟩ := h.delayOne h1
    rw [shiftDelay_of_one _ _ h1, hbcnt]
    exact .inr ⟨rfl, by decide⟩
  · rw [shiftDelay_of_two _ _ h2]
    exact .inr ⟨h2, (h.delayFull.mp h2).trans (toNat_le_satInc f.bcnt)⟩

theorem completePair_errors_le (c : Byte) (f : FramePath) (h : FrameInv f) (hover : (completePair c f).fbovf = false) :
    (completePair c f).ecnt.toNat ≤ (completePair c f).bcnt.toNat := by
  rw [completePair_fbovf, Bool.or_eq_false_iff] at hover
  obtain ⟨hbefore, hnow⟩ := hover
  have hle := h.errorsBelow hbefore
  have hinc := satInc_toNat_le f.ecnt
  rw [completePair_bcnt, completePair_ecnt, satInc_toNat_of_not_full f.bcnt hnow]
  split <;> omega

theorem frameInv_completePair (c : Byte) (f : FramePath) (h : FrameInv f) : FrameInv (completePair c f) where
  notHeld _ := ⟨rfl, rfl⟩
  badHeld _ := rfl
  delayLegal := by
    obtain ⟨hdln, -⟩ | ⟨hdln, -⟩ := completePair_delay c f h <;> rw [hdln] <;> decide
  delayEmpty h0 := by
    obtain ⟨hdln, -⟩ | ⟨hdln, -⟩ := completePair_delay c f h <;> rw [hdln] at h0 <;> contradiction
  delayOne h1 := by
    obtain ⟨-, hline⟩ | ⟨hdln, -⟩ := completePair_delay c f h
    · exact hline
    · rw [hdln] at h1; contradiction
  delayFull := by
    obtain ⟨hdln, -, hbcnt, -⟩ | ⟨hdln, hbcnt⟩ := completePair_delay c f h
    · rw [hdln, hbcnt]; decide
    · exact iff_of_true hdln hbcnt
  bytesFull hover := by
    rw [completePair_fbovf] at hover
    rw [completePair_bcnt]
    exact satInc_of_overflow f.bcnt f.fbovf h.bytesFull hover
  errorsFull hover := by
    rw [completePair_feovf] at hover
    rw [completePair_ecnt]
    cases hfails : pairFails c f with
    | true =>
      rw [hfails, Bool.true_and] at hover
      exact satInc_of_overflow f.ecnt f.feovf h.errorsFull hover
    | false =>
      rw [hfails, Bool.false_and, Bool.or_false] at hover
      exact h.errorsFull hover
  errorsBelow := completePair_errors_le c f h

theorem frameInv_dataMove (c : Byte) (f : FramePath) (h : FrameInv f) : FrameInv (dataMove c f) := by
  unfold dataMove
  split
  · exact frameInv_completePair c f h
  · exact frameInv_hold c f h

theorem frameInv_frameMove (i : Instr) (f : FramePath) (h : FrameInv f) : FrameInv (frameMove i f) := by
  cases i with
  | charLf => exact frameInv_empty
  | charHex c | charBad c => exact frameInv_dataMove c f h
  | nop | charCr | crcinit | crcupd b | rdreg r | wrctl swap sev | rdtbl k => exact h

/-! ### The obligation -/

/-- Settles O44: a command moves the frame path by `frameMove`, reset empties it, and nothing else touches it. -/
theorem stepKeepsTheFrameInvariant : Obligations.StepKeepsTheFrameInvariant := by
  intro s t hinv h
  obtain ⟨-, rfl⟩ | ⟨cw, rest, i, -, -, rfl⟩ | ⟨cw, rest, w, -, -, rfl⟩ | ⟨rest, -, rfl⟩ := step_inversion s t h
  · exact hinv
  · rw [effect_frame]
    exact frameInv_frameMove i s.frame hinv
  · exact hinv
  · exact frameInv_empty

end Sys2Proof.Proofs.FrameInvariant
end

section
/-! SUPPORT. The flags and the registers of an ended frame (spec/10_state.md R31, spec/60_exceptions.md R178): each bit of
R_FLAGS, and the relations between the results that the invariants of the frame path give. -/

namespace Sys2Proof.Proofs.ResultsInvariant

open Sys2Proof.Machine Sys2Proof.Safety Sys2Proof.Laws Sys2Proof.Proofs.FrameInvariant

/-! ### The bits of R_FLAGS -/

theorem frameFlags_bits (sev swap : Bool) (f : FramePath) :
    let r := frameFlags sev swap f
    r.getLsbD 0 = checkable f ∧ r.getLsbD 1 = crcMatches swap f ∧ r.getLsbD 2 = accepted sev swap f ∧
      r.getLsbD 3 = f.ph ∧ r.getLsbD 4 = (finalErrors f != 0) ∧ r.getLsbD 5 = f.fbovf ∧
      r.getLsbD 6 = errorsOverflow f ∧ r.getLsbD 7 = false :=
  packFlags_bits _ _ _ _ _ _ _

theorem checkable_iff (f : FramePath) : checkable f = true ↔ f.dln = 2 :=
  beq_iff_eq

theorem crcMatches_iff (swap : Bool) (f : FramePath) :
    crcMatches swap f = true ↔ checkable f = true ∧ f.fcrc = carriedCrc swap f := by
  rw [crcMatches, Bool.and_eq_true, beq_iff_eq]

theorem accepted_iff (sev swap : Bool) (f : FramePath) :
    accepted sev swap f = true ↔ checkable f = true ∧ (crcMatches swap f = true ∨ sev = false) := by
  rw [accepted, Bool.and_eq_true, Bool.or_eq_true, Bool.not_eq_true']

/-! ### What the invariants of the frame path say of the results -/

theorem finalErrors_of_overflow (f : FramePath) (h : FrameInv f) (hover : errorsOverflow f = true) :
    finalErrors f = 0xFFFF := by
  rw [errorsOverflow] at hover
  rw [finalErrors]
  cases hph : f.ph with
  | true =>
    rw [hph, Bool.true_and] at hover
    exact satInc_of_overflow f.ecnt f.feovf h.errorsFull hover
  | false =>
    rw [hph, Bool.false_and, Bool.or_false] at hover
    exact h.errorsFull hover

theorem unchecked_results (swap : Bool) (f : FramePath) (h : FrameInv f) (hchk : checkable f = false) :
    carriedCrc swap f = 0 ∧ f.bcnt.toNat < 2 := by
  have hdln : ¬ f.dln = 2 := by
    rw [← checkable_iff, hchk]
    decide
  refine ⟨by rw [carriedCrc, hchk]; rfl, ?_⟩
  rw [h.delayFull] at hdln
  omega

theorem resultsInv_frameResults (sev swap : Bool) (f : FramePath) (h : FrameInv f) :
    ResultsInv (frameResults sev swap f) := by
  obtain ⟨hchk, hmatch, hacc, hodd, hhex, hbovf, heovf, hzero⟩ := frameFlags_bits sev swap f
  constructor <;> simp only [frameResults]
  case reserved => exact hzero
  case matchChecked =>
    rw [hmatch, hchk, crcMatches_iff]
    exact And.left
  case matchAccept =>
    rw [hmatch, hacc, accepted_iff]
    exact fun hm => ⟨((crcMatches_iff swap f).mp hm).left, .inl hm⟩
  case acceptCheck =>
    rw [hacc, hchk, accepted_iff]
    exact And.left
  case oddIsError =>
    rw [hodd, hhex, bne_iff_ne]
    exact Repetition.finalErrors_ne_zero_of_held f
  case hexErr => rw [hhex, bne_iff_ne]
  case bytesOver =>
    rw [hbovf]
    exact h.bytesFull
  case errorsOver =>
    rw [heovf, hhex]
    intro hover
    rw [finalErrors_of_overflow f h hover]
    decide
  case matchEqual =>
    rw [hchk, hmatch, crcMatches_iff]
    exact fun hc => and_iff_right hc
  case unchecked =>
    rw [hchk]
    exact unchecked_results swap f h

theorem resultsInv_reset : ResultsInv State.reset.results := by
  constructor <;> decide

/-! ### The obligations -/

/-- Settles O45: the terminator latches the results of a frame path that meets its invariants, reset clears them, and no
other command writes them. -/
theorem stepKeepsTheResultsInvariant : Obligations.StepKeepsTheResultsInvariant := by
  intro s t hframe hresults h
  obtain ⟨-, rfl⟩ | ⟨cw, rest, i, -, -, rfl⟩ | ⟨cw, rest, w, -, -, rfl⟩ | ⟨rest, -, rfl⟩ := step_inversion s t h
  · exact hresults
  · by_cases hlf : i = .charLf
    · subst hlf
      exact resultsInv_frameResults s.sev s.swap s.frame hframe
    · rw [ResultRegisters.effect_results_of_ne_charLf i _ hlf]
      exact hresults
  · exact hresults
  · exact resultsInv_reset

/-- Settles O43: the reset frame path is the empty one, and the reset results are all zero. -/
theorem resetMeetsTheFrameInvariant : Obligations.ResetMeetsTheFrameInvariant :=
  ⟨frameInv_empty, resultsInv_reset⟩

/-- Settles O31: the flags latched by the terminator are `frameFlags` of the frame path before it. -/
theorem flagBitsStandWhereTheSpecPutsThem : Obligations.FlagBitsStandWhereTheSpecPutsThem := by
  intro s t h
  obtain rfl := (exec_next_iff .charLf s t).mp h
  obtain ⟨hchk, hmatch, hacc, hodd, hhex, hbovf, heovf, hzero⟩ := frameFlags_bits s.sev s.swap s.frame
  refine ⟨hchk, ?matchBit, ?acceptBit, hodd, hhex, hbovf, heovf, hzero⟩
  case matchBit =>
    rw [effect, endFrame_results, frameResults, hmatch, crcMatches_iff, checkable_iff]
  case acceptBit =>
    rw [effect, endFrame_results, frameResults, hacc, hmatch, accepted_iff, checkable_iff]

end Sys2Proof.Proofs.ResultsInvariant
end

section
/-! SUPPORT. One step by its input (spec/00_scope.md R12, spec/20_memory.md R63, spec/70_reset_and_hazards.md R190): the idle
port, a command word, reset; and what every command does to the two ports. -/

namespace Sys2Proof.Proofs.Steps

open Sys2Proof.Machine Sys2Proof.Laws

/-! ### A step by its input -/

theorem step_of_idle (s : State) (h : s.inputs = []) : step s = .next s := by
  rw [step, h]

theorem step_of_command (s : State) (cw : Word) (rest : List Input) (h : s.inputs = .command cw :: rest) :
    step s = runWord cw { s with inputs := rest } := by
  rw [step, h]

theorem step_of_reset (s : State) (rest : List Input) (h : s.inputs = .reset :: rest) :
    step s = .next (resetBlock { s with inputs := rest }) := by
  rw [step, h]

theorem step_total (s : State) : ∃ t, step s = .next t := by
  rcases hin : s.inputs with _ | ⟨cw | _, rest⟩
  · exact ⟨s, step_of_idle s hin⟩
  · rw [step_of_command s cw rest hin]
    exact NoOperations.runWord_total cw _
  · exact ⟨_, step_of_reset s rest hin⟩

/-! ### The ports -/

theorem effect_inputs (i : Instr) (s : State) : (effect i s).inputs = s.inputs := by
  cases i with
  | charHex c | charBad c => exact dataChar_inputs s c
  | nop | charLf | charCr | crcinit | crcupd b | rdreg r | wrctl swap sev | rdtbl k => rfl

theorem effect_at_most_one_event (i : Instr) (s : State) :
    (effect i s).events = s.events ∨ ∃ ev, (effect i s).events = s.events ++ [ev] := by
  rw [CommandEvents.effect_events]
  cases CommandEvents.eventOf i s with
  | none => exact .inl (List.append_nil _)
  | some ev => exact .inr ⟨ev, rfl⟩

/-! ### The obligations -/

/-- Settles O13: each kind of step has a next state, and a command, the illegal-word report and reset all leave the inputs to
come and the earlier events. -/
theorem everyStepGoesOn : Obligations.EveryStepGoesOn := by
  intro s
  obtain ⟨t, h⟩ := step_total s
  refine ⟨t, h, ?_⟩
  obtain ⟨hin, rfl⟩ | ⟨cw, rest, i, hin, -, rfl⟩ | ⟨cw, rest, w, hin, -, rfl⟩ | ⟨rest, hin, rfl⟩ := step_inversion s t h
  · exact ⟨by rw [hin]; rfl, .inl rfl, fun _ => rfl⟩
  · rw [effect_inputs, hin]
    exact ⟨rfl, effect_at_most_one_event i _, nofun⟩
  · rw [raiseIllegal_inputs, hin]
    exact ⟨rfl, .inr ⟨_, raiseIllegal_events _ cw⟩, nofun⟩
  · rw [resetBlock_inputs, hin]
    exact ⟨rfl, .inl rfl, nofun⟩

/-- Settles O11: the step of a command word is the run of that word, which is the meaning of the command it decodes to. -/
theorem stepRunsTheDecodedCommand : Obligations.StepRunsTheDecodedCommand := by
  intro s cw rest i hin
  refine ⟨step_of_command s cw rest hin, fun hd => ?_⟩
  rw [step_of_command s cw rest hin, runWord_command cw i _ hd, exec_eq_effect]

/-- Settles O14: `resetBlock` is the reset state but for the two ports. -/
theorem resetDiscardsTheFrameInProgress : Obligations.ResetDiscardsTheFrameInProgress := by
  intro s rest hin
  exact ⟨_, step_of_reset s rest hin, rfl, rfl, rfl, rfl, rfl, rfl, rfl, rfl⟩

end Sys2Proof.Proofs.Steps
end

section
/-! SUPPORT. The frame path of a text (spec/10_state.md R20 to R27): what one more character does to what is held, to the
decoded bytes and to the count of failing pairs, and that the machine's frame path follows. -/

namespace Sys2Proof.Proofs.TextFramePath

open Sys2Proof.Machine Sys2Proof.Safety Sys2Proof.Laws Sys2Proof.Proofs.DelayLine Sys2Proof.Proofs.FrameInvariant

/-! ### One more character of a text -/

/-- 1 for a pair with a character that is no hex digit (R138 (b)). -/
def pairErrors (a c : Byte) : Nat := if isHex a && isHex c then 0 else 1

theorem append_of_no_leftover (text : List Byte) (c : Byte) (h : leftoverChar text = none) :
    leftoverChar (text ++ [c]) = some c ∧ decodedBytes (text ++ [c]) = decodedBytes text ∧
      failingPairs (text ++ [c]) = failingPairs text := by
  induction text using leftoverChar.induct with
  | case1 => exact ⟨rfl, rfl, rfl⟩
  | case2 a => contradiction
  | case3 a b rest ih =>
    obtain ⟨hleft, hbytes, hfails⟩ := ih h
    exact ⟨hleft, congrArg (textByte a b :: ·) hbytes, congrArg (pairErrors a b + ·) hfails⟩

theorem append_of_leftover (text : List Byte) (a c : Byte) (h : leftoverChar text = some a) :
    leftoverChar (text ++ [c]) = none ∧ decodedBytes (text ++ [c]) = decodedBytes text ++ [textByte a c] ∧
      failingPairs (text ++ [c]) = failingPairs text + pairErrors a c := by
  induction text using leftoverChar.induct with
  | case1 => contradiction
  | case2 b =>
    cases h
    exact ⟨rfl, rfl, Nat.add_comm _ 0⟩
  | case3 x y rest ih =>
    obtain ⟨hleft, hbytes, hfails⟩ := ih h
    refine ⟨hleft, congrArg (textByte x y :: ·) hbytes, ?_⟩
    exact (congrArg (pairErrors x y + ·) hfails).trans (Nat.add_assoc _ _ _).symm

/-! ### The frame path by what is held, the decoded bytes and the failing pairs -/

/-- The frame path with this character held, after these bytes and this many failing pairs (R20 to R27). -/
def pathOf (held : Option Byte) (bytes : List Byte) (errors : Nat) : FramePath where
  ph := held.isSome
  hn := (held.bind hexVal).getD 0
  hbad := (held.map fun c => !isHex c).getD false
  fcrc := crc16 (bytes.take (bytes.length - 2))
  pen := (bytes.reverse.drop 1).headD 0
  ult := bytes.reverse.headD 0
  dln := BitVec.ofNat 2 (min bytes.length 2)
  bcnt := saturated bytes.length
  fbovf := decide (0xFFFF < bytes.length)
  ecnt := saturated errors
  feovf := decide (0xFFFF < errors)

theorem frameOf_eq_pathOf (text : List Byte) :
    frameOf text = pathOf (leftoverChar text) (decodedBytes text) (failingPairs text) := rfl

theorem frameOf_nil : frameOf [] = FramePath.empty := by decide

theorem saturated_toNat (n : Nat) : (saturated n).toNat = min n 0xFFFF := by
  rw [saturated, BitVec.toNat_ofNat, Nat.mod_eq_of_lt (by omega)]

theorem saturated_succ (n : Nat) : saturated (n + 1) = satInc (saturated n) := by
  apply BitVec.eq_of_toNat_eq
  rw [satInc_toNat, saturated_toNat, saturated_toNat]
  omega

/-- The overflow bit of a count is set by the increment that finds the counter at its maximum, and stays set. -/
theorem overflow_succ (n : Nat) :
    decide (0xFFFF < n + 1) = (decide (0xFFFF < n) || satFull (saturated n)) := by
  rw [Bool.eq_iff_iff, Bool.or_eq_true, satFull_iff, saturated_toNat, decide_eq_true_iff, decide_eq_true_iff]
  omega

theorem hold_pathOf (c : Byte) (bytes : List Byte) (errors : Nat) :
    hold c (pathOf none bytes errors) = pathOf (some c) bytes errors := by
  cases hv : hexVal c with
  | none => simp [hold, pathOf, isHex_eq_isSome, hv]
  | some v => simp [hold, pathOf, isHex_eq_isSome, hv]

theorem countError_pathOf (held : Option Byte) (bytes : List Byte) (errors : Nat) :
    countError (pathOf held bytes errors) = pathOf held bytes (errors + 1) := by
  simp only [countError, pathOf, saturated_succ, overflow_succ]

/-- A push appends to the decoded bytes, whatever number of bytes the delay line holds. -/
theorem pushByte_pathOf (b : Byte) (held : Option Byte) (bytes : List Byte) (errors : Nat) :
    pushByte b (pathOf held bytes errors) = pathOf held (bytes ++ [b]) errors := by
  rw [pushByte]
  obtain rfl | ⟨u, y, rfl⟩ := List.eq_nil_or_concat bytes
  · rw [shiftDelay_of_zero _ _ rfl, countByte]
    rfl
  obtain rfl | ⟨u, x, rfl⟩ := List.eq_nil_or_concat u
  · rw [shiftDelay_of_one _ _ rfl, countByte]
    rfl
  · rw [shiftDelay_of_two _ _ (by simp [pathOf]), countByte]
    have htake : (u ++ [x, y, b]).take (u.length + 1) = u ++ [x] := by simp [List.take_append]
    simp [pathOf, saturated_succ, overflow_succ, htake, crc16_snoc]

theorem pairFails_pathOf (a c : Byte) (bytes : List Byte) (errors : Nat) :
    pairFails c (pathOf (some a) bytes errors) = !(isHex a && isHex c) :=
  (Bool.not_and _ _).symm

theorem pairByte_pathOf (a c : Byte) (bytes : List Byte) (errors : Nat) :
    pairByte c (pathOf (some a) bytes errors) = textByte a c := by
  cases ha : hexVal a <;> cases hc : hexVal c <;> simp [pairByte, textByte, pathOf, isHex_eq_isSome, ha, hc]

theorem completePair_pathOf (a c : Byte) (bytes : List Byte) (errors : Nat) :
    completePair c (pathOf (some a) bytes errors) =
      pathOf none (bytes ++ [textByte a c]) (errors + pairErrors a c) := by
  rw [completePair, pairByte_pathOf, pairFails_pathOf, pairErrors, countError_pathOf]
  cases isHex a && isHex c
  · simp only [Bool.not_false, if_true, pushByte_pathOf]
    rfl
  · simp only [Bool.not_true, Bool.false_eq_true, if_false, pushByte_pathOf]
    rfl

/-! ### The frame path follows the text -/

theorem frameOf_snoc (text : List Byte) (c : Byte) : frameOf (text ++ [c]) = dataMove c (frameOf text) := by
  rw [frameOf_eq_pathOf, frameOf_eq_pathOf, dataMove]
  cases hleft : leftoverChar text with
  | none =>
    obtain ⟨hnew, hbytes, hfails⟩ := append_of_no_leftover text c hleft
    rw [hnew, hbytes, hfails]
    exact (hold_pathOf c _ _).symm
  | some a =>
    obtain ⟨hnew, hbytes, hfails⟩ := append_of_leftover text a c hleft
    rw [hnew, hbytes, hfails]
    exact (completePair_pathOf a c _ _).symm

/-- What a command makes of the frame's text (R138). -/
def textMove (i : Instr) (text : List Byte) : List Byte :=
  match i with
  | .charLf => []
  | .charHex c | .charBad c => text ++ [c]
  | .nop | .charCr | .crcinit | .crcupd _ | .rdreg _ | .wrctl _ _ | .rdtbl _ => text

theorem frameMove_frameOf (i : Instr) (text : List Byte) : frameMove i (frameOf text) = frameOf (textMove i text) := by
  cases i with
  | charLf => exact frameOf_nil.symm
  | charHex c | charBad c => exact (frameOf_snoc text c).symm
  | nop | charCr | crcinit | crcupd b | rdreg r | wrctl swap sev | rdtbl k => rfl

/-- Settles O47: a command moves the frame path of a text to that of `textMove`, and reset empties both. -/
theorem stepKeepsTheFramePathOfItsText : Obligations.StepKeepsTheFramePathOfItsText := by
  intro s text hframe
  obtain ⟨t, h⟩ := Steps.step_total s
  refine ⟨t, h, ?_⟩
  obtain ⟨hin, rfl⟩ | ⟨cw, rest, i, hin, hd, rfl⟩ | ⟨cw, rest, w, hin, hd, rfl⟩ | ⟨rest, hin, rfl⟩ := step_inversion s t h
  · rw [hin]
    exact hframe
  · rw [effect_frame, hframe, frameMove_frameOf]
    simp only [hin, List.head?_cons, hd]
    cases i <;> rfl
  · simp only [hin, List.head?_cons, hd]
    exact hframe
  · rw [hin]
    exact frameOf_nil.symm

/-! ### The counters of a text's frame path -/

theorem decodedBytes_length (text : List Byte) : (decodedBytes text).length = text.length / 2 := by
  induction text using leftoverChar.induct with
  | case1 => rfl
  | case2 a => simp [decodedBytes]
  | case3 a b rest ih =>
    rw [decodedBytes, List.length_cons, ih, List.length_cons, List.length_cons]
    omega

theorem leftoverChar_isSome (text : List Byte) : (leftoverChar text).isSome = decide (text.length % 2 = 1) := by
  induction text using leftoverChar.induct with
  | case1 => rfl
  | case2 a => rfl
  | case3 a b rest ih =>
    rw [leftoverChar, ih, List.length_cons, List.length_cons]
    exact decide_eq_decide.mpr (by omega)

theorem frameInv_frameOf (text : List Byte) : FrameInv (frameOf text) := by
  induction text using List.reverseRecOn with
  | nil => exact frameOf_nil ▸ frameInv_empty
  | append_singleton text c ih => exact frameOf_snoc text c ▸ frameInv_dataMove c _ ih

theorem frameOf_bcnt_toNat (text : List Byte) : (frameOf text).bcnt.toNat = min (text.length / 2) 0xFFFF := by
  rw [← decodedBytes_length]
  exact saturated_toNat _

theorem frameOf_fbovf_eq_false_iff (text : List Byte) : (frameOf text).fbovf = false ↔ text.length / 2 ≤ 0xFFFF := by
  rw [← decodedBytes_length, ← Nat.not_lt]
  exact decide_eq_false_iff_not

theorem frameOf_ph (text : List Byte) : (frameOf text).ph = decide (text.length % 2 = 1) :=
  leftoverChar_isSome text

/-- Settles O48: the counters of `frameOf` are the saturated lengths, and its invariants hold after every character. -/
theorem countersAreExactUntilTheyOverflow : Obligations.CountersAreExactUntilTheyOverflow := by
  intro text
  refine ⟨frameInv_frameOf text, decodedBytes_length text, ?held, frameOf_bcnt_toNat text,
    frameOf_fbovf_eq_false_iff text, fun hexact => ?exactly, of_decide_eq_true⟩
  case held => rw [frameOf_ph, decide_eq_true_iff]
  case exactly =>
    have hle : ¬ 0xFFFF < failingPairs text := of_decide_eq_false hexact
    exact (saturated_toNat _).trans (by omega)

/-! ### What STATUS and the results say of the text -/

theorem busy_frameOf (text : List Byte) : busy (frameOf text) = true ↔ text ≠ [] := by
  have hbcnt : (frameOf text).bcnt ≠ 0 ↔ min (text.length / 2) 0xFFFF ≠ 0 := by
    rw [← frameOf_bcnt_toNat, ne_eq, ← BitVec.toNat_inj]
    rfl
  rw [busy, Bool.or_eq_true, bne_iff_ne, hbcnt, frameOf_ph, decide_eq_true_iff, ← List.length_pos_iff]
  omega

/-- Settles O49: BUSY is a held character or a byte count, which a text of one or of more characters has. -/
theorem busyMeansAFrameIsInProgress : Obligations.BusyMeansAFrameIsInProgress := by
  intro s t text hframe h
  obtain rfl := (exec_next_iff _ s t).mp h
  have hbits : ∀ busy ill : Bool, let v := 0#14 ++ BitVec.ofBool busy ++ BitVec.ofBool ill
      v.getLsbD 1 = busy ∧ v.getLsbD 0 = ill ∧ v.extractLsb' 2 14 = 0 := by decide
  obtain ⟨hbusy, hill, hzero⟩ := hbits (busy s.frame) s.ill
  refine ⟨readReg .status s, rfl, ?_, hill, hzero⟩
  rw [readReg, hbusy, hframe]
  exact busy_frameOf text

/-- Settles O50: while no overflow is recorded, R_BCNT is half the length of the text and ODD its parity. -/
theorem textLengthFromTheResults : Obligations.TextLengthFromTheResults := by
  intro s t text hframe h hbovf
  obtain rfl := (exec_next_iff _ s t).mp h
  obtain ⟨-, -, -, hodd, -, hover, -, -⟩ := ResultsInvariant.frameFlags_bits s.sev s.swap s.frame
  rw [effect, endFrame_results, frameResults] at hbovf ⊢
  rw [hover, hframe, frameOf_fbovf_eq_false_iff] at hbovf
  rw [hodd, hframe, frameOf_bcnt_toNat, frameOf_ph, Bool.toNat, Bool.cond_decide]
  split_ifs <;> omega

end Sys2Proof.Proofs.TextFramePath
end

section
/-! SUPPORT. The arithmetic of the CRC (spec/40_crc16.md R101 to R107): the bit-shift form splits into the byte that leaves the
accumulator and the rest, which gives the table form; and the laws that follow. -/

namespace Sys2Proof.Proofs.CrcArithmetic

open Sys2Proof.Machine Sys2Proof.Laws

/-! ### The table form and the bit-shift form -/

theorem tableEntry_eq_crcUpdShift (i : Byte) : tableEntry i = crcUpdShift 0x0000 i := by
  revert i; decide +kernel

/-- While the low bits are 0 an iteration only shifts (R102). -/
theorem crcBits_of_low_bits_zero (n : Nat) (x : Word) (h : ∀ k < n, x.getLsbD k = false) : crcBits n x = x >>> n := by
  induction n generalizing x with
  | zero => exact (BitVec.ushiftRight_zero x).symm
  | succ n ih =>
    have hbit : crcBit x = x >>> 1 := by
      rw [crcBit, h 0 (Nat.succ_pos n)]
      exact BitVec.xor_zero
    have hlow : ∀ k < n, (x >>> 1).getLsbD k = false := fun k hk => by
      rw [BitVec.getLsbD_ushiftRight]
      exact h (1 + k) (by omega)
    rw [crcBits, hbit, ih (x >>> 1) hlow, ← BitVec.shiftRight_add, Nat.add_comm]

/-- A word is its low byte and, with that byte cleared, the rest. -/
theorem low_byte_xor_rest (x : Word) : (x.extractLsb' 0 8).setWidth 16 ^^^ x >>> 8 <<< 8 = x := by
  refine BitVec.eq_of_getLsbD_eq fun i hi => ?_
  by_cases h : i < 8
  · simp [h, hi]
  · simp [h, hi, Nat.add_sub_of_le (Nat.le_of_not_lt h)]

theorem crcBits_eight (x : Word) : crcBits 8 x = x >>> 8 ^^^ tableEntry (x.extractLsb' 0 8) := by
  have hlow : crcBits 8 ((x.extractLsb' 0 8).setWidth 16) = tableEntry (x.extractLsb' 0 8) := by
    rw [tableEntry_eq_crcUpdShift, crcUpdShift]
    exact (congrArg (crcBits 8) BitVec.zero_xor).symm
  have hrest : crcBits 8 (x >>> 8 <<< 8) = x >>> 8 := by
    rw [crcBits_of_low_bits_zero 8 _ fun k hk => by simp [hk]]
    refine BitVec.eq_of_getLsbD_eq fun i hi => ?_
    simpa [hi] using BitVec.lt_of_getLsbD
  rw [BitVec.xor_comm, ← hlow]
  nth_rw 1 [← low_byte_xor_rest x]
  rw [crcBits_xor, hrest]

theorem crcUpd_eq_crcUpdShift (c : Word) (b : Byte) : crcUpd c b = crcUpdShift c b := by
  have hbyte : b.setWidth 16 >>> 8 = 0#16 := BitVec.eq_of_getLsbD_eq fun i hi => by simp
  rw [crcUpdShift, crcBits_eight, BitVec.ushiftRight_xor_distrib, hbyte, BitVec.xor_zero, crcUpd]

/-! ### The range function -/

theorem map_getD_range (bytes : List Byte) (start length : Nat) (h : start + length ≤ bytes.length) :
    ((List.range length).map fun k => bytes.getD (start + k) 0) = (bytes.drop start).take length := by
  refine List.ext_getElem (by simp; omega) fun k hk _ => ?_
  have hin : start + k < bytes.length := by
    rw [List.length_map, List.length_range] at hk
    omega
  simp [hin]

/-! ### The laws of the update -/

/-- Bit 15 after an iteration is the bit that left, and taking its feedback back gives the other bits. -/
theorem crcBit_injective : Function.Injective crcBit := by
  intro x y h
  have hmsb (z : Word) : (crcBit z).getLsbD 15 = z.getLsbD 0 := by
    have hpoly (b : Bool) : (if b then Config.crcPoly else 0).getLsbD 15 = b := by revert b; decide
    rw [crcBit, BitVec.getLsbD_xor, hpoly, BitVec.getLsbD_ushiftRight, BitVec.getLsbD_of_ge z _ (by decide), Bool.false_xor]
  have hlow : x.getLsbD 0 = y.getLsbD 0 := by rw [← hmsb, ← hmsb, h]
  have hrest : x >>> 1 = y >>> 1 := by
    rw [crcBit, crcBit, hlow] at h
    exact (BitVec.xor_left_inj _).mp h
  refine BitVec.eq_of_getLsbD_eq fun i hi => ?_
  cases i with
  | zero => exact hlow
  | succ i =>
    have hbit := congrArg (·.getLsbD i) hrest
    simpa only [BitVec.getLsbD_ushiftRight, Nat.add_comm 1 i] using hbit

theorem crcBits_injective (n : Nat) : Function.Injective (crcBits n) := by
  induction n with
  | zero => exact Function.injective_id
  | succ n ih => exact ih.comp crcBit_injective

theorem crcUpd_bijective (b : Byte) : Function.Bijective fun c => crcUpd c b := by
  refine Finite.injective_iff_bijective.mp fun c d h => ?_
  simp only [crcUpd_eq_crcUpdShift, crcUpdShift] at h
  exact (BitVec.xor_left_inj _).mp (crcBits_injective 8 h)

theorem crcUpd_xor (c d : Word) (b : Byte) : crcUpd (c ^^^ d) b = crcUpd c b ^^^ crcUpd d 0x00 := by
  have hsplit : c ^^^ d ^^^ b.setWidth 16 = c ^^^ b.setWidth 16 ^^^ (d ^^^ 0#16) := by
    rw [BitVec.xor_zero]
    ac_rfl
  rw [crcUpd_eq_crcUpdShift, crcUpd_eq_crcUpdShift, crcUpd_eq_crcUpdShift, crcUpdShift, hsplit, crcBits_xor]
  rfl

theorem crcUpd_byte_first (c : Word) (b : Byte) : crcUpd c b = crcUpd (c ^^^ b.setWidth 16) 0x00 := by
  rw [crcUpd_eq_crcUpdShift, crcUpd_eq_crcUpdShift, crcUpdShift, crcUpdShift]
  exact congrArg (crcBits 8) BitVec.xor_zero.symm

theorem crc16_append (u v : List Byte) : crc16 (u ++ v) = v.foldl crcUpd (crc16 u) :=
  List.foldl_append

/-- The accumulator's own low byte cancels it, so that only the shift remains. -/
theorem crcUpd_own_low_byte (c : Word) : crcUpd c (c.extractLsb' 0 8) = c >>> 8 := by
  have hindex : (c ^^^ (c.extractLsb' 0 8).setWidth 16).extractLsb' 0 8 = 0#8 := by
    rw [BitVec.extractLsb'_xor, BitVec.extractLsb'_setWidth_of_le (by decide), BitVec.extractLsb'_eq_self, BitVec.xor_self]
  rw [crcUpd, hindex]
  exact BitVec.xor_zero

/-! ### The obligations -/

/-- Settles O17: eight iterations shift the high byte down and feed the low byte back as its table entry. -/
theorem tableFormEqualsShiftForm : Obligations.TableFormEqualsShiftForm :=
  crcUpd_eq_crcUpdShift

/-- Settles O18: each of the 256 entries is computed. -/
theorem tableIsWhatTheShiftFormGenerates : Obligations.TableIsWhatTheShiftFormGenerates :=
  tableEntry_eq_crcUpdShift

/-- Settles O16: the bytes selected by index are those that `drop` and `take` select, and the two forms of the update agree. -/
theorem rangeFunctionFoldsTheSelectedBytes : Obligations.RangeFunctionFoldsTheSelectedBytes := by
  have hforms : crcUpd = crcUpdShift := funext₂ crcUpd_eq_crcUpdShift
  refine fun bytes start length => ⟨fun h => ?_, fun h => if_pos h, fun h => if_neg (by omega)⟩
  rw [map_getD_range bytes start length h, ← hforms]
  exact if_pos h

/-- Settles O19: every iteration is injective and linear, so the update is; the rest is the fold's. -/
theorem crcLaws : Obligations.CrcLaws :=
  ⟨crc16_nil, crcUpd_bijective, crcUpd_xor, crcUpd_byte_first, crc16_append⟩

/-- Settles O20: each half of the CRC cancels the low byte it meets, which leaves the accumulator shifted out. -/
theorem residueIsZero : Obligations.ResidueIsZero := by
  intro u
  have hhigh : (crc16 u).extractLsb' 8 8 = (crc16 u >>> 8).extractLsb' 0 8 :=
    BitVec.eq_of_getLsbD_eq fun i hi => by simp
  have hgone : crc16 u >>> 8 >>> 8 = 0x0000 := by
    rw [← BitVec.shiftRight_add]
    exact BitVec.ushiftRight_eq_zero (by decide)
  rw [crc16_append, List.foldl_cons, List.foldl_cons, List.foldl_nil, crcUpd_own_low_byte, hhigh, crcUpd_own_low_byte, hgone]

end Sys2Proof.Proofs.CrcArithmetic
end

section
/-! SUPPORT. The format of the event words (spec/30_encoding.md R73, R74), which every step keeps. -/

namespace Sys2Proof.Proofs.EventFormats

open Sys2Proof.Machine Sys2Proof.Safety Sys2Proof.Laws Sys2Proof.Proofs.CommandEvents

/-! ### The format of one event -/

theorem kindCode_ne_zero (k : EventKind) : kindCode k ≠ 0 := by
  cases k <;> decide

theorem eventWord_ne_zero (k : EventKind) (pay : Word) : eventWord k pay ≠ 0 := by
  intro h
  have hkind := evKind_eventWord k pay
  rw [h] at hkind
  exact kindCode_ne_zero k hkind.symm

theorem toNat_zeros_append (n w : Nat) (b : BitVec w) : (0#n ++ b).toNat = b.toNat := by
  simp [BitVec.toNat_append]

theorem eventFormat_of_eventOf (i : Instr) (s : State) (ev : EventWord) (h : eventOf i s = some ev) : EventFormat ev := by
  obtain ⟨hkind, -, c, -, hpay⟩ | ⟨hkind, hpay, -⟩ | ⟨hkind, -⟩ := eventOf_eq_some i s ev h
  · refine ⟨.inl hkind, fun _ => ?_, fun h2 => absurd (hkind.symm.trans h2) (by decide)⟩
    rw [hpay, toNat_zeros_append]
    exact BitVec.isLt _
  · refine ⟨.inr (.inl hkind), fun h1 => absurd (hkind.symm.trans h1) (by decide), fun _ => ?_⟩
    rw [hpay, toNat_zeros_append]
    exact BitVec.isLt _
  · exact ⟨.inr (.inr (.inl hkind)), fun h1 => absurd (hkind.symm.trans h1) (by decide),
      fun h2 => absurd (hkind.symm.trans h2) (by decide)⟩

theorem eventFormat_ill (cw : Word) : EventFormat (eventWord .ill cw) := by
  have hkind := evKind_eventWord .ill cw
  exact ⟨.inr (.inr (.inr hkind)), fun h1 => absurd (hkind.symm.trans h1) (by decide),
    fun h2 => absurd (hkind.symm.trans h2) (by decide)⟩

/-! ### The obligations -/

/-- Settles O8: the two fields are the two parts of the appended word, and no kind's code is 0. -/
theorem eventWordHoldsKindAndPayload : Obligations.EventWordHoldsKindAndPayload :=
  ⟨fun k p => ⟨evKind_eventWord k p, evPay_eventWord k p, eventWord_ne_zero k p⟩, rfl, rfl, rfl, rfl⟩

/-- Settles O46: a step's new event is a command's, by `eventOf`, or the illegal-word report. -/
theorem stepKeepsTheEventFormat : Obligations.StepKeepsTheEventFormat := by
  intro s t hevents h
  obtain ⟨-, rfl⟩ | ⟨cw, rest, i, -, -, rfl⟩ | ⟨cw, rest, w, -, -, rfl⟩ | ⟨rest, -, rfl⟩ := step_inversion s t h
  · exact hevents
  · rw [effect_events, List.forall_mem_append]
    refine ⟨hevents, fun ev hev => ?_⟩
    exact eventFormat_of_eventOf i _ ev (Option.mem_toList.mp hev)
  · rw [raiseIllegal_events, List.forall_mem_append, List.forall_mem_singleton]
    exact ⟨hevents, eventFormat_ill cw⟩
  · exact hevents

end Sys2Proof.Proofs.EventFormats
end

section
/-! SUPPORT. What each command may change (spec/42_control.md R156): the frame rule of every command, the words that write
DCRC, CTRL and ILL, and the commands with one effect. -/

namespace Sys2Proof.Proofs.CommandFrames

open Sys2Proof.Machine Sys2Proof.Laws Sys2Proof.Proofs.CommandWords Sys2Proof.Proofs.FramePathMoves
  Sys2Proof.Proofs.FrameInvariant

/-! ### The frame rule -/

/-- Holding a character touches nothing but the three fields of what is held (R122). -/
theorem hold_eq (c : Byte) (f : FramePath) :
    hold c f = { f with ph := (hold c f).ph, hn := (hold c f).hn, hbad := (hold c f).hbad } := by
  unfold hold
  split <;> rfl

theorem dataChar_frame_of_free (c : Byte) (s : State) (h : s.frame.ph = false) :
    (dataChar c s).events = s.events ∧ (dataChar c s).frame =
      { s.frame with ph := (dataChar c s).frame.ph, hn := (dataChar c s).frame.hn, hbad := (dataChar c s).frame.hbad } := by
  rw [dataChar_of_free c s h]
  exact ⟨rfl, hold_eq c s.frame⟩

theorem dataChar_events_of_held (c : Byte) (s : State) (h : s.frame.ph = true) :
    (dataChar c s).events = s.events ++ [0x1#4 ++ 0#8 ++ pairByte c s.frame] := by
  rw [dataChar_of_held c s h]

/-- A pair of two hex digits counts no error (R123). -/
theorem dataChar_errors_of_good (c : Byte) (s : State) (hph : s.frame.ph = true) (hheld : s.frame.hbad = false)
    (hwf : (Instr.charHex c).wf = true) :
    (dataChar c s).frame.ecnt = s.frame.ecnt ∧ (dataChar c s).frame.feovf = s.frame.feovf := by
  obtain ⟨v, hv⟩ := exists_hexVal_of_wf c hwf
  rw [dataChar_of_good c v s hph hheld hv]
  exact ⟨pushByte_ecnt s.frame _, pushByte_feovf s.frame _⟩

/-- Settles O36: the effect of each command, the data characters by whether one is held. -/
theorem everyCommandHasItsFrame : Obligations.EveryCommandHasItsFrame := by
  intro i s t hwf h
  obtain rfl := (exec_next_iff i s t).mp h
  refine ⟨Steps.effect_inputs i s, ?_⟩
  cases i with
  | nop | charCr => rfl
  | charHex c =>
    refine ⟨dataChar_dcrc s c, dataChar_sev s c, dataChar_swap s c, dataChar_ill s c, dataChar_results s c,
      dataChar_frame_of_free c s, fun hph => ⟨⟨_, dataChar_events_of_held c s hph⟩, fun hheld _ => ?_⟩⟩
    exact dataChar_errors_of_good c s hph hheld hwf
  | charBad c =>
    exact ⟨dataChar_dcrc s c, dataChar_sev s c, dataChar_swap s c, dataChar_ill s c, dataChar_results s c,
      dataChar_frame_of_free c s, fun hph => ⟨⟨_, dataChar_events_of_held c s hph⟩, nofun⟩⟩
  | charLf => exact ⟨rfl, rfl, rfl, rfl, _, rfl⟩
  | crcinit | crcupd b => exact ⟨rfl, rfl, rfl, rfl, rfl, rfl⟩
  | rdreg r | rdtbl k => exact ⟨rfl, rfl, rfl, rfl, rfl, rfl, _, rfl⟩
  | wrctl swap sev => exact ⟨rfl, rfl, rfl, rfl, rfl⟩

/-! ### The words that write DCRC, CTRL and ILL -/

open Sys2Proof.Laws.EncodedOpcode (opcode)

theorem effect_dcrc_eq (i : Instr) (s : State) (hinit : i ≠ .crcinit) (hupd : ∀ b, i ≠ .crcupd b) :
    (effect i s).dcrc = s.dcrc := by
  cases i with
  | crcinit => contradiction
  | crcupd b => exact absurd rfl (hupd b)
  | charHex c | charBad c => exact dataChar_dcrc s c
  | nop | charLf | charCr | rdreg r | wrctl swap sev | rdtbl k => rfl

theorem effect_dcrc_of_opcode (i : Instr) (s : State) (hinit : opcode i ≠ 0x2) (hupd : opcode i ≠ 0x3) :
    (effect i s).dcrc = s.dcrc :=
  effect_dcrc_eq i s (fun hi => hinit (hi ▸ rfl)) fun _ hi => hupd (hi ▸ rfl)

theorem effect_ctrl_of_opcode (i : Instr) (s : State) (hwrite : opcode i ≠ 0x5) :
    (effect i s).sev = s.sev ∧ (effect i s).swap = s.swap := by
  cases i with
  | wrctl swap sev => contradiction
  | charHex c | charBad c => exact ⟨dataChar_sev s c, dataChar_swap s c⟩
  | nop | charLf | charCr | crcinit | crcupd b | rdreg r | rdtbl k => exact ⟨rfl, rfl⟩

/-- Settles O38: a word that decodes carries its command's opcode, and one that does not sets ILL and nothing else. -/
theorem onlyTheirCommandsWriteDcrcCtrlAndIll : Obligations.OnlyTheirCommandsWriteDcrcCtrlAndIll := by
  intro s t cw h
  obtain ⟨i, hd, rfl⟩ | ⟨w, hd, rfl⟩ := ResultRegisters.runWord_inversion cw s t h
  · rw [WordRoundTrip.opField_of_decode cw i hd, IllegalBit.effect_ill, hd]
    exact ⟨effect_dcrc_of_opcode i s, effect_ctrl_of_opcode i s, by simp⟩
  · exact ⟨fun _ _ => rfl, fun _ => ⟨rfl, rfl⟩, iff_of_true (raiseIllegal_ill s cw) (.inr ⟨w, hd⟩)⟩

/-! ### Commands with one effect -/

theorem decode_rdtblWord (i : Byte) : decode (0x6000 + i.setWidth 16) = .ok (.rdtbl i) := by
  have hword : 0x6000 + i.setWidth 16 = commandWord 0x6 i := (commandWord_eq_add 0x6 i).symm
  rw [hword, decode_commandWord]
  rfl

theorem decode_error_above_nop (cw : Word) (hlow : 0x0001 ≤ cw) (hhigh : cw ≤ 0x0FFF) : ∃ w, decode cw = .error w := by
  have hlowNat : 0x0001 ≤ cw.toNat := hlow
  have hhighNat : cw.toNat ≤ 0x0FFF := hhigh
  rw [decode_error_iff, IsCommandNumber]
  omega

theorem decode_error_above_wrctl (cw : Word) (hlow : 0x5004 ≤ cw) (hhigh : cw ≤ 0x5FFF) :
    ∃ w, decode cw = .error w := by
  have hlowNat : 0x5004 ≤ cw.toNat := hlow
  have hhighNat : cw.toNat ≤ 0x5FFF := hhigh
  rw [decode_error_iff, IsCommandNumber]
  omega

/-- Settles O23: the effect of RDTBL is the event of the entry, and the printed entries are looked up. -/
theorem rdtblReportsTheEntry : Obligations.RdtblReportsTheEntry :=
  ⟨fun i => exec_eq_effect (.rdtbl i), decode_rdtblWord,
    fun cw _ => DirectCrcCommands.decode_error_of_bits_11_8_ne_zero cw,
    by decide, by decide, by decide, by decide, by decide⟩

/-- Settles O33: the effect of NOP is the state before, and 0x0000 is the one command number of its opcode. -/
theorem nopChangesNothing : Obligations.NopChangesNothing :=
  ⟨exec_eq_effect .nop, WordRoundTrip.decode_encode .nop rfl, decode_error_above_nop⟩

/-- Settles O35: the effect of WRCTL is `writeCtrl`, and its opcode has four command numbers. -/
theorem wrctlWritesBothFields : Obligations.WrctlWritesBothFields :=
  ⟨fun swap sev => exec_eq_effect (.wrctl swap sev), WordRoundTrip.decode_encode (.wrctl false false) rfl,
    WordRoundTrip.decode_encode (.wrctl false true) rfl, WordRoundTrip.decode_encode (.wrctl true false) rfl,
    WordRoundTrip.decode_encode (.wrctl true true) rfl, decode_error_above_wrctl⟩

end Sys2Proof.Proofs.CommandFrames
end

section
/-! SUPPORT. The hex digits (spec/41_hex_frame.md R120, R121). -/

namespace Sys2Proof.Proofs.HexDigits

open Sys2Proof.Machine Sys2Proof.Laws

/-- Each range of digits has one offset (R121). -/
theorem hexVal_ranges (c : Byte) :
    (0x30 ≤ c → c ≤ 0x39 → hexVal c = some ((c - 0x30).setWidth 4)) ∧
    (0x41 ≤ c → c ≤ 0x46 → hexVal c = some ((c - 0x37).setWidth 4)) ∧
    (0x61 ≤ c → c ≤ 0x66 → hexVal c = some ((c - 0x57).setWidth 4)) := by
  revert c; decide +kernel

theorem isHex_iff_ranges (c : Byte) :
    isHex c = true ↔ (0x30 ≤ c ∧ c ≤ 0x39) ∨ (0x41 ≤ c ∧ c ≤ 0x46) ∨ (0x61 ≤ c ∧ c ≤ 0x66) := by
  simp [isHex, or_assoc]

/-- Settles O25: the three ranges have their values, they are the hex digits, and no other character has a value. -/
theorem hexDigitsHaveTheirValues : Obligations.HexDigitsHaveTheirValues := by
  intro c
  obtain ⟨hdigit, hupper, hlower⟩ := hexVal_ranges c
  exact ⟨hdigit, hupper, hlower, isHex_iff_ranges c, by rw [isHex_eq_isSome]⟩

end Sys2Proof.Proofs.HexDigits
end

section
/-! SUPPORT. Runs over a sequence of command words (spec/70_reset_and_hazards.md R204), and the direct CRC of the bytes of its
CRCUPD words (spec/40_crc16.md R108, R111). -/

namespace Sys2Proof.Proofs.WordSequences

open Sys2Proof.Machine Sys2Proof.Laws

/-! ### A run over words -/

/-- The next state of a command word, legal or not. -/
def wordEffect (cw : Word) (s : State) : State :=
  match decode cw with
  | .ok i => effect i s
  | .error _ => raiseIllegal cw s

theorem wordEffect_of_decode (cw : Word) (i : Instr) (s : State) (h : decode cw = .ok i) :
    wordEffect cw s = effect i s := by
  rw [wordEffect, h]

theorem runWord_eq_wordEffect (cw : Word) (s : State) : runWord cw s = .next (wordEffect cw s) := by
  rw [wordEffect]
  rcases hd : decode cw with w | i
  · exact runWord_illegal cw w s hd
  · exact runWord_command cw i s hd

theorem wordEffect_inputs (cw : Word) (s : State) : (wordEffect cw s).inputs = s.inputs := by
  unfold wordEffect
  split
  · exact Steps.effect_inputs _ s
  · exact raiseIllegal_inputs s cw

/-- The word is taken from the command port and run. -/
def consume (s : State) (cw : Word) : State := wordEffect cw { s with inputs := s.inputs.tail }

theorem consume_inputs (s : State) (cw : Word) : (consume s cw).inputs = s.inputs.tail :=
  wordEffect_inputs cw _

theorem step_eq_consume (s : State) (cw : Word) (rest : List Input) (h : s.inputs = .command cw :: rest) :
    step s = .next (consume s cw) := by
  rw [Steps.step_of_command s cw rest h, runWord_eq_wordEffect, consume, h, List.tail_cons]

/-- The words are taken and run one after the other. -/
def consumeAll (s : State) (cws : List Word) : State := cws.foldl consume s

theorem consumeAll_cons (s : State) (cw : Word) (cws : List Word) :
    consumeAll s (cw :: cws) = consumeAll (consume s cw) cws := rfl

theorem consumeAll_snoc (s : State) (cws : List Word) (cw : Word) :
    consumeAll s (cws ++ [cw]) = consume (consumeAll s cws) cw :=
  List.foldl_concat consume s cw cws

theorem run_words (cws : List Word) (s : State) (rest : List Input) (h : s.inputs = cws.map .command ++ rest) :
    Sys2Proof.core.run cws.length s = .next (consumeAll s cws) ∧ (consumeAll s cws).inputs = rest := by
  induction cws generalizing s with
  | nil => exact ⟨rfl, h⟩
  | cons cw cws ih =>
    have htail : (consume s cw).inputs = cws.map .command ++ rest := by
      rw [consume_inputs, h]
      rfl
    rw [List.length_cons, consumeAll_cons, run_step cws.length s _ (step_eq_consume s cw _ h)]
    exact ih _ htail

/-! ### The direct CRC of a sequence -/

/-- The operand of a CRCUPD word (R110). -/
def crcupdOperand (cw : Word) : Option Byte := if cw.extractLsb' 8 8 = 0x30#8 then some (imm8 cw) else none

theorem decode_of_crcupd_high (cw : Word) (h : cw.extractLsb' 8 8 = 0x30#8) : decode cw = .ok (.crcupd (imm8 cw)) := by
  rw [decode_eq_halves, h]
  rfl

theorem crcupd_high_of_decode (cw : Word) (b : Byte) (h : decode cw = .ok (.crcupd b)) : cw.extractLsb' 8 8 = 0x30#8 := by
  obtain ⟨-, rfl⟩ := WordRoundTrip.encode_of_decode cw _ h
  exact commandWord_high 0x3 b

theorem eq_of_decode_crcinit (cw : Word) (h : decode cw = .ok .crcinit) : cw = 0x2000 := by
  obtain ⟨-, rfl⟩ := WordRoundTrip.encode_of_decode cw _ h
  rfl

/-- Of the words other than CRCINIT only CRCUPD moves the accumulator (R29). -/
theorem wordEffect_dcrc (cw : Word) (s : State) (h : cw ≠ 0x2000) :
    (wordEffect cw s).dcrc = (crcupdOperand cw).elim s.dcrc (crcUpd s.dcrc) := by
  by_cases hupd : cw.extractLsb' 8 8 = 0x30#8
  · rw [wordEffect_of_decode cw _ s (decode_of_crcupd_high cw hupd), crcupdOperand, if_pos hupd]
    rfl
  · rw [crcupdOperand, if_neg hupd, Option.elim_none, wordEffect]
    rcases hd : decode cw with w | i
    · exact raiseIllegal_dcrc s cw
    · exact CommandFrames.effect_dcrc_eq i s (fun hi => h (eq_of_decode_crcinit cw (hi ▸ hd)))
        fun b hi => hupd (crcupd_high_of_decode cw b (hi ▸ hd))

theorem consumeAll_dcrc (cws : List Word) (s : State) (h : 0x2000 ∉ cws) :
    (consumeAll s cws).dcrc = (cws.filterMap crcupdOperand).foldl crcUpd s.dcrc := by
  induction cws generalizing s with
  | nil => rfl
  | cons cw cws ih =>
    obtain ⟨hcw, hcws⟩ := List.ne_and_not_mem_of_not_mem_cons h
    rw [consumeAll_cons, ih _ hcws, consume, wordEffect_dcrc cw _ (Ne.symm hcw), List.filterMap_cons]
    cases crcupdOperand cw <;> rfl

/-- Settles O24: CRCINIT starts the accumulator at the CRC's initial value, the words update it by their operands, and the
read appends its value. -/
theorem directCrcOfACommandSequence : Obligations.DirectCrcOfACommandSequence := by
  intro s cws rest hin hinit
  obtain ⟨hrun, hrest⟩ := run_words _ s rest hin
  rw [List.length_append, List.length_cons, List.length_singleton] at hrun
  refine ⟨_, hrun, hrest, ?_⟩
  have hread (v : State) : (consume v 0x4002).events.getLast? = some (eventWord .rval v.dcrc) := by
    rw [consume, wordEffect_of_decode 0x4002 (.rdreg .dcrc) _ (RegisterReads.decode_encode_rdreg .dcrc)]
    exact List.getLast?_concat
  have hstart : (consume s 0x2000).dcrc = Config.crcStart := by
    rw [consume, wordEffect_of_decode 0x2000 .crcinit _ DirectCrcCommands.decode_crcinitWord]
    rfl
  rw [consumeAll_snoc, hread, consumeAll_cons, consumeAll_dcrc cws _ hinit, hstart]
  rfl

end Sys2Proof.Proofs.WordSequences
end

section
/-! SUPPORT. Whole frames (spec/41_hex_frame.md R138, R140): the state after the characters of a text, the run over a stream and
its terminator, and the results of the frame of a text. -/

namespace Sys2Proof.Proofs.WholeFrames

open Sys2Proof.Machine Sys2Proof.Safety Sys2Proof.Laws Sys2Proof.Proofs.FramePathMoves Sys2Proof.Proofs.FrameInvariant
  Sys2Proof.Proofs.TextFramePath Sys2Proof.Proofs.WordSequences Sys2Proof.Proofs.ResultsInvariant

/-! ### The characters of a frame -/

/-- The event of a decoded byte (R74). -/
def byteEvent (x : Byte) : EventWord := 0x1#4 ++ 0#8 ++ x

/-- The byte that a data character completes, if one is held. -/
def completedByte (c : Byte) (f : FramePath) : List Byte := if f.ph then [pairByte c f] else []

theorem dataChar_eq (c : Byte) (s : State) : dataChar c s =
    { s with frame := dataMove c s.frame, events := s.events ++ (completedByte c s.frame).map byteEvent } := by
  cases hph : s.frame.ph with
  | true =>
    rw [dataChar_of_held c s hph, dataMove, completedByte, if_pos hph, if_pos hph]
    rfl
  | false =>
    have hfree : ¬ s.frame.ph = true := by simp [hph]
    rw [dataChar_of_free c s hph, dataMove, completedByte, if_neg hfree, if_neg hfree, List.map_nil, List.append_nil]

theorem decodedBytes_snoc (text : List Byte) (c : Byte) :
    decodedBytes (text ++ [c]) = decodedBytes text ++ completedByte c (frameOf text) := by
  rw [frameOf_eq_pathOf]
  cases hleft : leftoverChar text with
  | none =>
    obtain ⟨-, hbytes, -⟩ := append_of_no_leftover text c hleft
    rw [hbytes]
    exact (List.append_nil _).symm
  | some a =>
    obtain ⟨-, hbytes, -⟩ := append_of_leftover text a c hleft
    rw [hbytes, ← pairByte_pathOf]
    rfl

/-- The state after a frame's text so far, from `s` with an empty frame path: the text's frame path, and one event for each
decoded byte. -/
def onText (s : State) (text : List Byte) : State :=
  { s with frame := frameOf text, events := s.events ++ (decodedBytes text).map byteEvent }

theorem dataChar_onText (c : Byte) (s : State) (text : List Byte) :
    dataChar c (onText s text) = onText s (text ++ [c]) := by
  rw [dataChar_eq, onText, onText, frameOf_snoc, decodedBytes_snoc, List.map_append, List.append_assoc]

/-! ### The stream of a frame -/

/-- A carriage return is dropped, and any other character but the terminator is data (R14, R129). -/
theorem effect_charInstr (c : Byte) (s : State) (h : c ≠ Config.terminator) :
    effect (charInstr c) s = if c = Config.ignoredByte then s else dataChar c s := by
  rw [charInstr, charClass, if_neg h]
  split_ifs <;> rfl

theorem consume_char (c : Byte) (s : State) :
    consume s (encode (charInstr c)) = effect (charInstr c) { s with inputs := s.inputs.tail } :=
  wordEffect_of_decode _ _ _ (WordRoundTrip.decode_encode _ (WordRoundTrip.charInstr_wf c))

theorem frameText_snoc (stream : List Byte) (c : Byte) :
    frameText (stream ++ [c]) = if c = Config.ignoredByte then frameText stream else frameText stream ++ [c] := by
  rw [frameText, List.filter_append]
  by_cases h : c = Config.ignoredByte <;> simp [h, frameText]

theorem consumeAll_stream (stream : List Byte) (s : State) (hempty : s.frame = FramePath.empty)
    (hstream : Config.terminator ∉ stream) :
    consumeAll s (textWords stream) =
      onText { s with inputs := s.inputs.drop stream.length } (frameText stream) := by
  induction stream using List.reverseRecOn with
  | nil =>
    have hstart : onText s [] = s := by
      rw [onText, frameOf_nil, ← hempty]
      exact congrArg (fun events => { s with events := events }) (List.append_nil _)
    exact hstart.symm
  | append_singleton stream c ih =>
    obtain ⟨hbefore, hc⟩ : Config.terminator ∉ stream ∧ c ≠ Config.terminator := by
      simpa [not_or, eq_comm] using hstream
    have htail : s.inputs.drop (stream ++ [c]).length = (s.inputs.drop stream.length).tail := by
      rw [List.tail_drop, List.length_append, List.length_singleton]
    have hword : textWords (stream ++ [c]) = textWords stream ++ [encode (charInstr c)] := List.map_append
    rw [hword, consumeAll_snoc, ih hbefore, consume_char, effect_charInstr c _ hc, frameText_snoc, htail]
    split_ifs
    · rfl
    · exact dataChar_onText c { s with inputs := (s.inputs.drop stream.length).tail } (frameText stream)

/-- The state after a whole frame. -/
def afterFrame (s : State) (stream : List Byte) (rest : List Input) : State :=
  endFrame (onText { s with inputs := rest } (frameText stream))

theorem run_frame (s : State) (stream : List Byte) (rest : List Input) (hempty : s.frame = FramePath.empty)
    (hstream : Config.terminator ∉ stream) (hin : s.inputs = feed stream ++ .command 0x100A :: rest) :
    Sys2Proof.core.run (stream.length + 1) s = .next (afterFrame s stream rest) := by
  have hwords : s.inputs = (textWords stream ++ [0x100A]).map .command ++ rest := by
    rw [hin, feed, List.map_append, List.append_assoc]
    rfl
  have hlength : (textWords stream ++ [0x100A]).length = stream.length + 1 := by
    rw [List.length_append, textWords, List.length_map, List.length_singleton]
  obtain ⟨hrun, -⟩ := run_words _ s rest hwords
  have hrest : (s.inputs.drop stream.length).tail = rest := by
    simp [hin, feed, textWords]
  rw [← hlength, hrun, consumeAll_snoc, consumeAll_stream stream s hempty hstream, consume,
    wordEffect_of_decode 0x100A .charLf _ ((ResultRegisters.decode_eq_charLf_iff _).mpr rfl), afterFrame, ← hrest]
  rfl

/-! ### The results of the frame of a text -/

/-- The failing pairs and a leftover character are the errors of a text (R138 (b)). -/
def errorCount (text : List Byte) : Nat := failingPairs text + text.length % 2

theorem finalErrors_frameOf (text : List Byte) : finalErrors (frameOf text) = saturated (errorCount text) := by
  rw [finalErrors, frameOf_ph, errorCount]
  obtain heven | hodd := Nat.mod_two_eq_zero_or_one text.length
  · rw [heven]; rfl
  · rw [hodd, saturated_succ]; rfl

theorem errorsOverflow_frameOf (text : List Byte) :
    errorsOverflow (frameOf text) = decide (0xFFFF < errorCount text) := by
  rw [errorsOverflow, frameOf_ph, errorCount]
  obtain heven | hodd := Nat.mod_two_eq_zero_or_one text.length
  · rw [heven]; exact Bool.or_false _
  · rw [hodd, overflow_succ]; rfl

theorem checkable_frameOf (text : List Byte) :
    checkable (frameOf text) = decide (2 ≤ (decodedBytes text).length) := by
  have hdln : (frameOf text).dln = BitVec.ofNat 2 (min (decodedBytes text).length 2) := rfl
  rw [Bool.eq_iff_iff, checkable_iff, decide_eq_true_iff, hdln, ← BitVec.toNat_inj, BitVec.toNat_ofNat,
    Nat.mod_eq_of_lt (by omega)]
  exact min_eq_right_iff

/-- The delay line holds the last two decoded bytes (R24). -/
theorem last_two_of_frameOf (text : List Byte) (h : 2 ≤ (decodedBytes text).length) :
    (decodedBytes text).drop ((decodedBytes text).length - 2) = [(frameOf text).pen, (frameOf text).ult] := by
  rw [frameOf]
  generalize decodedBytes text = bytes at h
  obtain rfl | ⟨u, y, rfl⟩ := List.eq_nil_or_concat bytes
  · contradiction
  obtain rfl | ⟨u, x, rfl⟩ := List.eq_nil_or_concat u
  · contradiction
  · simp

/-- A frame with fewer than two bytes has no CRC of its own and carries none (R132). -/
theorem crcs_of_short_text (swap : Bool) (text : List Byte) (h : (decodedBytes text).length < 2) :
    (frameOf text).fcrc = 0xFFFF ∧ carriedCrc swap (frameOf text) = 0x0000 := by
  have hnone : (decodedBytes text).length - 2 = 0 := by omega
  refine ⟨?_, ?_⟩
  · rw [frameOf, hnone]
    rfl
  · rw [carriedCrc, checkable_frameOf, if_neg (by simpa using h)]

theorem carriedCrc_of_long_text (swap : Bool) (text : List Byte) (h : 2 ≤ (decodedBytes text).length) :
    carriedCrc swap (frameOf text) =
      if swap then (frameOf text).pen ++ (frameOf text).ult else (frameOf text).ult ++ (frameOf text).pen := by
  rw [carriedCrc, checkable_frameOf, if_pos (by simpa using h)]

/-! ### The obligations -/

/-- Settles O51: the stream leads to its text's frame path and byte events, and the terminator latches `frameResults` of that
frame path. -/
theorem wholeFrameMeetsItsDescription : Obligations.WholeFrameMeetsItsDescription := by
  intro s stream rest hempty hstream hin text b n
  obtain ⟨hchk, hmatch, hacc, hodd, hhex, hbovf, heovf, -⟩ := frameFlags_bits s.sev s.swap (frameOf text)
  have hlong : checkable (frameOf text) = true ↔ 2 ≤ n := by rw [checkable_frameOf, decide_eq_true_iff]
  have hequal : crcMatches s.swap (frameOf text) = true ↔
      2 ≤ n ∧ (frameOf text).fcrc = carriedCrc s.swap (frameOf text) := by rw [crcMatches_iff, hlong]
  refine ⟨afterFrame s stream rest, run_frame s stream rest hempty hstream hin, ?events, finalErrors_frameOf text,
    decodedBytes_length text, rfl, hodd.trans (frameOf_ph text), hchk.trans (checkable_frameOf text), hhex, hbovf,
    heovf.trans (errorsOverflow_frameOf text), ?matchBit, ?acceptBit, ?long, fun hshort => crcs_of_short_text s.swap text hshort,
    rfl, rfl, rfl, rfl, rfl, rfl⟩
  case events =>
    rw [afterFrame, endFrame_events, eventWord_setWidth]
    rfl
  case matchBit => exact (Bool.eq_iff_iff.mp hmatch).trans hequal
  case acceptBit =>
    refine (Bool.eq_iff_iff.mp hacc).trans ?_
    rw [accepted_iff, hlong, hequal]
    exact and_congr_right fun h => or_congr_left (and_iff_right h)
  case long =>
    exact fun h => ⟨rfl, _, _, last_two_of_frameOf text h, carriedCrc_of_long_text s.swap text h⟩

/-- Settles O52: the events and the results of `afterFrame` are made of the text and CTRL alone. -/
theorem sameTextGivesTheSameReport : Obligations.SameTextGivesTheSameReport := by
  intro s u stream rest rest' hs hu hsev hswap hstream hsin huin
  refine ⟨afterFrame s stream rest, afterFrame u stream rest', _, run_frame s stream rest hs hstream hsin,
    run_frame u stream rest' hu hstream huin, List.append_assoc _ _ _, ?events, ?results⟩
  case events =>
    rw [hsev, hswap]
    exact List.append_assoc _ _ _
  case results => exact congrArg₂ (frameResults · · (frameOf (frameText stream))) hsev hswap

end Sys2Proof.Proofs.WholeFrames
end

section
/-! SUPPORT. The lines `text "s"` and `frame "s"` (spec/30_encoding.md R85, R87, R88; log entry 13): a line is the blanks before
its mnemonic, the mnemonic in either case, and an operand that begins with a blank. -/

namespace Sys2Proof.Proofs.StringLines

open Sys2Proof.Machine Sys2Proof.Safety Sys2Proof.Laws Sys2Proof.Proofs.Assembling

/-! ### A line by its parts -/

theorem not_comment_of_isBlank (c : Char) (h : isBlank c = true) : (c != '#') = true := by
  obtain rfl | rfl : c = ' ' ∨ c = '\t' := by simpa [isBlank] using h
  · decide
  · decide

theorem assembleLine_of_parts (before m gap operand : List Char) (hbefore : before.all isBlank = true) (hm0 : m ≠ [])
    (hm : m.all (!endsMnemonic ·) = true) (hgap0 : gap ≠ []) (hgap : gap.all isBlank = true) :
    assembleLine (before ++ m ++ gap ++ operand) = (parseOperand m (gap ++ operand)).bind assemble := by
  obtain ⟨c, m, rfl⟩ := List.exists_cons_of_ne_nil hm0
  obtain ⟨g, gap, rfl⟩ := List.exists_cons_of_ne_nil hgap0
  have hblank := List.all_eq_true.mp hbefore
  have hkeep := List.all_eq_true.mp hm
  have hc : isBlank c = false ∧ c ≠ '#' := by simpa [endsMnemonic] using hkeep c (by simp)
  have hg : endsMnemonic g = true := by simp [endsMnemonic, List.all_eq_true.mp hgap g (by simp)]
  rw [List.append_assoc, List.append_assoc, List.cons_append (as := gap)]
  have hline : lineEnds (before ++ (c :: m ++ g :: (gap ++ operand))) = false := by
    rw [lineEnds, dropComment, List.takeWhile_append_of_pos fun b hb => not_comment_of_isBlank b (hblank b hb)]
    simp [hc]
  have hbody : (before ++ (c :: m ++ g :: (gap ++ operand))).dropWhile isBlank = c :: m ++ g :: (gap ++ operand) := by
    rw [List.dropWhile_append_of_pos hblank]
    exact List.dropWhile_cons_of_neg (by simp [hc])
  have htake : (c :: m ++ g :: (gap ++ operand)).takeWhile (!endsMnemonic ·) = c :: m := by
    rw [List.takeWhile_append_of_pos hkeep]
    simp [hg]
  have hdrop : (c :: m ++ g :: (gap ++ operand)).dropWhile (!endsMnemonic ·) = g :: (gap ++ operand) := by
    rw [List.dropWhile_append_of_pos hkeep]
    simp [hg]
  rw [assembleLine, hline]
  simp only [hbody]
  exact congrArg₂ (fun a b => (parseOperand a b).bind assemble) htake hdrop

/-! ### The operand of a string line -/

theorem parseOperand_text_string (m rest cs : List Char) (bytes : List Byte)
    (hm : m ∈ [['t', 'e', 'x', 't'], ['T', 'E', 'X', 'T']]) (hrest : rest.dropWhile isBlank = '"' :: cs)
    (h : parseString cs = some bytes) : parseOperand m rest = .ok (.text bytes) := by
  rw [parseOperand]
  simp only [hrest, h]
  obtain rfl | rfl : m = ['t', 'e', 'x', 't'] ∨ m = ['T', 'E', 'X', 'T'] := by simpa using hm
  · rfl
  · rfl

theorem parseOperand_frame_string (m rest cs : List Char) (bytes : List Byte)
    (hm : m ∈ [['f', 'r', 'a', 'm', 'e'], ['F', 'R', 'A', 'M', 'E']]) (hrest : rest.dropWhile isBlank = '"' :: cs)
    (h : parseString cs = some bytes) : parseOperand m rest = .ok (.frame bytes) := by
  rw [parseOperand]
  simp only [hrest, h]
  obtain rfl | rfl : m = ['f', 'r', 'a', 'm', 'e'] ∨ m = ['F', 'R', 'A', 'M', 'E'] := by simpa using hm
  · rfl
  · rfl

/-! ### The obligation -/

/-- Settles O53: the blanks are skipped, the string spells its pieces' bytes, and each byte has the word of its `char`. -/
theorem stringLinesAssembleByteByByte : Obligations.StringLinesAssembleByteByByte := by
  intro before gap after pieces hbefore hgap hgap0 hafter hpieces string words
  have hparse := parseString_pieces pieces after hafter hpieces
  have hwords : (pieces.map (·.2)).map (fun c => 0x1000 + c.setWidth 16) = words := List.map_map
  have hrest : (gap ++ string).dropWhile isBlank = string := by
    rw [List.dropWhile_append_of_pos (List.all_eq_true.mp hgap)]
    exact List.dropWhile_cons_of_neg (by decide)
  have hmnemonic : ∀ m ∈ [['t', 'e', 'x', 't'], ['T', 'E', 'X', 'T'], ['f', 'r', 'a', 'm', 'e'], ['F', 'R', 'A', 'M', 'E']],
      m ≠ [] ∧ m.all (!endsMnemonic ·) = true := by decide
  refine ⟨fun m hm => ?text, fun m hm => ?frame⟩
  case text =>
    obtain ⟨hm0, hkeep⟩ := hmnemonic m (List.mem_append_left _ hm)
    calc assembleLine (before ++ m ++ gap ++ string)
        = (parseOperand m (gap ++ string)).bind assemble :=
          assembleLine_of_parts before m gap string hbefore hm0 hkeep hgap0 hgap
      _ = assemble (.text (pieces.map (·.2))) :=
          congrArg (·.bind assemble) (parseOperand_text_string m _ _ _ hm hrest hparse)
      _ = .ok words := by rw [assemble_text, hwords]
  case frame =>
    obtain ⟨hm0, hkeep⟩ := hmnemonic m (List.mem_append_right [_, _] hm)
    calc assembleLine (before ++ m ++ gap ++ string)
        = (parseOperand m (gap ++ string)).bind assemble :=
          assembleLine_of_parts before m gap string hbefore hm0 hkeep hgap0 hgap
      _ = assemble (.frame (pieces.map (·.2))) :=
          congrArg (·.bind assemble) (parseOperand_frame_string m _ _ _ hm hrest hparse)
      _ = .ok (words ++ [0x100A]) := by rw [assemble_frame, hwords]

end Sys2Proof.Proofs.StringLines
end
